-- ==== Sys2Proof/Word.lean ====
section
/-! DEFINITION. The word of the Intcode core and the parameter mode.

A word is a mathematical integer, Lean's `Int` (00_scope.md R6, R7): memory words, addresses, the instruction pointer,
channel values and results all have this type. A finite word width is a check on values (Machine/Flags.lean `fits`),
never a wrap (R6). No value is narrower than a word (R9), so nothing is ever extended or cut. -/

namespace Sys2Proof

/-- The two parameter modes (30_encoding.md R63). -/
inductive Mode where
  /-- Mode digit 0: the parameter word is the address of the operand. -/
  | position
  /-- Mode digit 1: the parameter word is the operand. -/
  | immediate
deriving DecidableEq, Repr

end Sys2Proof
end

