-- ==== Sys2Proof/Syntax.lean ====
section
/-! DEFINITION. The nine instructions (30_encoding.md R64, R65).

An `Instr` is what the decoder's latch holds during one step: the opcode, one mode per parameter and the parameter
words (10_state.md R30). A destination's mode is carried and never selects anything (R70, R75). -/

namespace Sys2Proof

/-- One constructor per row of the opcode table. `m1 m2 m3` are the modes and `p1 p2 p3` the parameter words
`raw(1) raw(2) raw(3)`. -/
inductive Instr where
  /-- ADD, opcode 1: sources 1 and 2, destination 3. -/
  | add (m1 m2 m3 : Mode) (p1 p2 p3 : Int)
  /-- MULT, opcode 2: sources 1 and 2, destination 3. -/
  | mult (m1 m2 m3 : Mode) (p1 p2 p3 : Int)
  /-- STORE, opcode 3: destination 1; the value comes from the input channel. -/
  | store (m1 : Mode) (p1 : Int)
  /-- OUTPUT, opcode 4: source 1. -/
  | output (m1 : Mode) (p1 : Int)
  /-- JUMP-IF-TRUE, opcode 5: sources 1 (condition) and 2 (target). -/
  | jumpIfTrue (m1 m2 : Mode) (p1 p2 : Int)
  /-- JUMP-IF-FALSE, opcode 6: sources 1 (condition) and 2 (target). -/
  | jumpIfFalse (m1 m2 : Mode) (p1 p2 : Int)
  /-- LESS-THAN, opcode 7: sources 1 and 2, destination 3. -/
  | lessThan (m1 m2 m3 : Mode) (p1 p2 p3 : Int)
  /-- EQUALS, opcode 8: sources 1 and 2, destination 3. -/
  | equals (m1 m2 m3 : Mode) (p1 p2 p3 : Int)
  /-- HALT, opcode 99: no parameter. -/
  | halt
deriving DecidableEq, Repr

/-- The parameter words of an instruction, in order (30_encoding.md R60). -/
def Instr.params : Instr → List Int
  | .add _ _ _ p1 p2 p3 => [p1, p2, p3]
  | .mult _ _ _ p1 p2 p3 => [p1, p2, p3]
  | .store _ p1 => [p1]
  | .output _ p1 => [p1]
  | .jumpIfTrue _ _ p1 p2 => [p1, p2]
  | .jumpIfFalse _ _ p1 p2 => [p1, p2]
  | .lessThan _ _ _ p1 p2 p3 => [p1, p2, p3]
  | .equals _ _ _ p1 p2 p3 => [p1, p2, p3]
  | .halt => []

end Sys2Proof
end

