-- ==== Sys2Proof/Decode.lean ====
section
/-! DEFINITION. The instruction decoder (30_encoding.md R66 to R69, R75) and, after it, the encoder (R73).

The fields of an instruction word are decimal digits (00_scope.md R8): the opcode is the two lowest, and the mode of
parameter `k` is digit `k + 1`. Every word outside the 45 legal ones is rejected by name. -/

namespace Sys2Proof

/-- The nine opcodes (30_encoding.md R65). -/
inductive Opcode where
  | add | mult | store | output | jumpIfTrue | jumpIfFalse | lessThan | equals | halt
deriving DecidableEq, Repr

/-- The opcode's number, column `op` of 30_encoding.md R65. -/
def Opcode.number : Opcode → Nat
  | .add => 1
  | .mult => 2
  | .store => 3
  | .output => 4
  | .jumpIfTrue => 5
  | .jumpIfFalse => 6
  | .lessThan => 7
  | .equals => 8
  | .halt => 99

/-- The lookup of an opcode field. Every other number, 0 and 9 to 98, is no opcode (30_encoding.md R67). -/
def Opcode.ofNumber : Nat → Option Opcode
  | 1 => some .add
  | 2 => some .mult
  | 3 => some .store
  | 4 => some .output
  | 5 => some .jumpIfTrue
  | 6 => some .jumpIfFalse
  | 7 => some .lessThan
  | 8 => some .equals
  | 99 => some .halt
  | _ => none

/-- `PARAMS[op]`, column `n` of 30_encoding.md R65. -/
def Opcode.paramCount : Opcode → Nat
  | .add | .mult | .lessThan | .equals => 3
  | .jumpIfTrue | .jumpIfFalse => 2
  | .store | .output => 1
  | .halt => 0

/-- The mnemonic, as the opcode table spells it. -/
def Opcode.mnemonic : Opcode → String
  | .add => "ADD"
  | .mult => "MULT"
  | .store => "STORE"
  | .output => "OUTPUT"
  | .jumpIfTrue => "JUMP-IF-TRUE"
  | .jumpIfFalse => "JUMP-IF-FALSE"
  | .lessThan => "LESS-THAN"
  | .equals => "EQUALS"
  | .halt => "HALT"

/-- Why the decoder rejects an instruction word (30_encoding.md R75). -/
inductive DecodeFault where
  /-- A negative word (R66) or an opcode field that is no opcode (R67). -/
  | invalidOpcode
  /-- The mode digit of parameter `k` is no mode (R68), or, with `k = n + 1`, a digit above the last mode digit is
  not zero (R69). -/
  | invalidMode (k : Nat)
deriving DecidableEq, Repr

/-- The decoded instruction word `(op, m(1..n))` of 30_encoding.md R75. A mode the opcode has no parameter for is
`position`, which is what its absent digit reads as (R62). -/
structure Head where
  op : Opcode
  m1 : Mode
  m2 : Mode
  m3 : Mode
deriving DecidableEq, Repr

/-- The opcode field of a word: its two least significant decimal digits (30_encoding.md R61). -/
def opcodeField (w : Nat) : Nat := w % 100

/-- The mode digit of parameter `k`: decimal digit `k + 1` (30_encoding.md R62). -/
def modeDigit (k w : Nat) : Nat := w / 10 ^ (k + 1) % 10

/-- The mode a digit names; digits 2 to 9 name none (30_encoding.md R63, R68). -/
def Mode.ofDigit : Nat → Option Mode
  | 0 => some .position
  | 1 => some .immediate
  | _ => none

/-- The first of `n` parameters, from number `k` on, whose mode digit is no mode (30_encoding.md R68). -/
def firstBadMode (w : Nat) : (n : Nat) → (k : Nat) → Option Nat
  | 0, _ => none
  | n + 1, k => if (Mode.ofDigit (modeDigit k w)).isSome then firstBadMode w n (k + 1) else some k

/-- The mode of parameter `k` in a word whose mode digits have been checked. -/
def modeOf (k w : Nat) : Mode := (Mode.ofDigit (modeDigit k w)).getD .position

/-- The decoder on one instruction word, with the checks in the order R66, R67, R68, R69 (30_encoding.md R75). -/
def decodeWord (w : Int) : Except DecodeFault Head :=
  if w < 0 then .error .invalidOpcode
  else
    match Opcode.ofNumber (opcodeField w.toNat) with
    | none => .error .invalidOpcode
    | some op =>
      match firstBadMode w.toNat op.paramCount 1 with
      | some k => .error (.invalidMode k)
      | none =>
        if w.toNat / 10 ^ (op.paramCount + 2) ≠ 0 then .error (.invalidMode (op.paramCount + 1))
        else .ok { op := op, m1 := modeOf 1 w.toNat, m2 := modeOf 2 w.toNat, m3 := modeOf 3 w.toNat }

/-- The instruction made of a decoded word and its parameter words (30_encoding.md R60). `ps` holds the opcode's
parameter count of words: the callers read exactly that many. -/
def Head.instr (h : Head) (ps : List Int) : Instr :=
  let p1 := ps.getD 0 0
  let p2 := ps.getD 1 0
  let p3 := ps.getD 2 0
  match h.op with
  | .add => .add h.m1 h.m2 h.m3 p1 p2 p3
  | .mult => .mult h.m1 h.m2 h.m3 p1 p2 p3
  | .store => .store h.m1 p1
  | .output => .output h.m1 p1
  | .jumpIfTrue => .jumpIfTrue h.m1 h.m2 p1 p2
  | .jumpIfFalse => .jumpIfFalse h.m1 h.m2 p1 p2
  | .lessThan => .lessThan h.m1 h.m2 h.m3 p1 p2 p3
  | .equals => .equals h.m1 h.m2 h.m3 p1 p2 p3
  | .halt => .halt

/-- Why a sequence of words does not begin with an instruction. -/
inductive StreamFault where
  /-- The instruction word is rejected. -/
  | badWord (e : DecodeFault)
  /-- Word `k` of the instruction is missing (0: the instruction word itself). -/
  | truncated (k : Nat)
deriving DecidableEq, Repr

/-- The decoder on a sequence of words, total: the instruction it begins with, and the words after it. -/
def decode : List Int → Except StreamFault (Instr × List Int)
  | [] => .error (.truncated 0)
  | w :: rest =>
    match decodeWord w with
    | .error e => .error (.badWord e)
    | .ok h =>
      if rest.length < h.op.paramCount then .error (.truncated (rest.length + 1))
      else .ok (h.instr (rest.take h.op.paramCount), rest.drop h.op.paramCount)

/-- The host's table word: `w` is the value of the instruction word and the parameter words are zeros. A word of this
hardware has no bit length (20_memory.md R44), so `w` is read whole, whatever `nbits` says (assumption log 5). -/
def decodeTableWord (_nbits w : Nat) : Option Instr :=
  match decode [(w : Int), 0, 0, 0] with
  | .error _ => none
  | .ok (i, _) => some i

/-! ### The encoder -/

/-- The mode's digit (30_encoding.md R63). -/
def Mode.digit : Mode → Nat
  | .position => 0
  | .immediate => 1

/-- The instruction word of an opcode number and three mode digits (30_encoding.md R73). -/
def wordOf (op m1 m2 m3 : Nat) : Nat := op + 100 * m1 + 1000 * m2 + 10000 * m3

/-- The instruction word of an instruction (30_encoding.md R73, R74). -/
def encodeWord : Instr → Int
  | .add m1 m2 m3 _ _ _ => wordOf 1 m1.digit m2.digit m3.digit
  | .mult m1 m2 m3 _ _ _ => wordOf 2 m1.digit m2.digit m3.digit
  | .store m1 _ => wordOf 3 m1.digit 0 0
  | .output m1 _ => wordOf 4 m1.digit 0 0
  | .jumpIfTrue m1 m2 _ _ => wordOf 5 m1.digit m2.digit 0
  | .jumpIfFalse m1 m2 _ _ => wordOf 6 m1.digit m2.digit 0
  | .lessThan m1 m2 m3 _ _ _ => wordOf 7 m1.digit m2.digit m3.digit
  | .equals m1 m2 m3 _ _ _ => wordOf 8 m1.digit m2.digit m3.digit
  | .halt => wordOf 99 0 0 0

/-- The words of an instruction: its instruction word, then its parameter words (30_encoding.md R60, R64). -/
def encode (i : Instr) : List Int := encodeWord i :: i.params

/-- The 45 legal instruction words, as the table of 30_encoding.md R74 lists them. -/
def legalWords : List Int :=
  [1, 101, 1001, 1101, 10001, 10101, 11001, 11101] ++ [2, 102, 1002, 1102, 10002, 10102, 11002, 11102] ++
  [3, 103] ++ [4, 104] ++ [5, 105, 1005, 1105] ++ [6, 106, 1006, 1106] ++
  [7, 107, 1007, 1107, 10007, 10107, 11007, 11107] ++ [8, 108, 1008, 1108, 10008, 10108, 11008, 11108] ++ [99]

end Sys2Proof
end

