-- ==== Sys2Proof/Config.lean ====
section
/-! DEFINITION. The implementation parameters of the core (00_scope.md R5).

They are fixed for one run, and no instruction writes them. The third parameter of R5, the memory length `N`, is the
length of the program image, and is held with the memory array itself (Machine/State.lean, `Memory.size`). -/

namespace Sys2Proof

/-- The word width `W` (00_scope.md R5, 92_eei_decisions.md D1). -/
inductive WordWidth where
  /-- `W = ∞`, the normative value: every word is representable. -/
  | unbounded
  /-- A finite `W`, in bits; R5 admits `W ≥ 16` (`Config.wf`). -/
  | finite (bits : Nat)
deriving DecidableEq, Repr

/-- What STORE does on an empty input channel (00_scope.md R5, 92_eei_decisions.md D6). -/
inductive InputMode where
  /-- STORE faults with InputExhausted (60_exceptions.md R153). -/
  | batch
  /-- STORE makes the core wait for the host (60_exceptions.md R162). -/
  | interactive
deriving DecidableEq, Repr

/-- The named parameters a model of the core takes (00_scope.md R5). -/
structure Config where
  /-- The word width `W`. -/
  width : WordWidth
  /-- The parameter `INPUT_MODE`. -/
  inputMode : InputMode
deriving DecidableEq, Repr

end Sys2Proof
end

