-- ==== Sys2Proof/Machine/Flags.lean ====
section
/-! DEFINITION. The tests the ALU makes.

The core has no flags and no condition codes (10_state.md R27). What other machines keep in flags is here a test made
inside one step: the zero test of the two jumps, the Boolean result words of LESS-THAN and EQUALS, and the range test
of a finite word width. -/

namespace Sys2Proof.Machine

/-- `fits(v)`: is `v` a Word (40_arithmetic.md R102)? Always so when `W = ∞`; otherwise
`-2^(W-1) ≤ v ≤ 2^(W-1) - 1`. -/
def fits (c : Config) (v : Int) : Bool :=
  match c.width with
  | .unbounded => true
  | .finite bits => decide (-((2 ^ (bits - 1) : Nat) : Int) ≤ v ∧ v ≤ ((2 ^ (bits - 1) : Nat) : Int) - 1)

/-- The bound on the memory length under a finite `W`: `N ≤ 2^(W-1) - 4` (00_scope.md R5,
92_eei_decisions.md D16). -/
def sizeFits (c : Config) (size : Nat) : Bool :=
  match c.width with
  | .unbounded => true
  | .finite bits => decide (size + 4 ≤ 2 ^ (bits - 1))

/-- The zero test of JUMP-IF-TRUE: any non-zero value is true, negative values included (42_jumps.md R120). -/
def nonZeroTest (v : Int) : Bool := decide (v ≠ 0)

/-- The zero test of JUMP-IF-FALSE: only the value 0 is false (42_jumps.md R121). -/
def zeroTest (v : Int) : Bool := decide (v = 0)

/-- A comparison's result as a memory word, 1 or 0 (43_compare.md R130, R131). -/
def boolWord (b : Bool) : Int := if b then 1 else 0

/-- The signed, strict comparison of LESS-THAN (43_compare.md R130, 00_scope.md R7). -/
def lessThanTest (a b : Int) : Bool := decide (a < b)

/-- The integer equality of EQUALS (43_compare.md R131). -/
def equalsTest (a b : Int) : Bool := decide (a = b)

end Sys2Proof.Machine
end

