-- ==== Sys2Proof/Machine/State.lean ====
section
/-! DEFINITION. The architectural state of the core (10_state.md), why a step stops, and the state after reset.

The core has no general registers (R20), no flags (R27), no program-addressable control registers (R28) and no other
register files (R29). Its hidden state lives inside one step only (R30). -/

namespace Sys2Proof.Machine

/-- The memory array `mem[0, N)` of words (10_state.md R21). `cells` lists the words that are not zero, as pairs of
address and word with rising addresses; an address in `[0, N)` that is not listed holds the word 0
(assumption log 1). `Memory.wf` in Machine/Ops.lean is this canonical form. -/
structure Memory where
  /-- `N`, the length in words: the length of the program image, unchanged during a run. -/
  size : Nat
  /-- The words of the array that are not zero. -/
  cells : List (Nat × Int)
deriving DecidableEq, Repr

/-- The run state (10_state.md R23). -/
inductive Run where
  /-- The next step fetches at `ip`. -/
  | running
  /-- A STORE found the input channel empty in interactive mode; the core waits for the host. -/
  | waitInput
  /-- HALT was executed; final. -/
  | halted
  /-- A fatal fault was taken; over, but not final. -/
  | faulted
deriving DecidableEq, Repr

/-- The fault record (10_state.md R24), with the numbers the host reads (70_reset_and_hazards.md R186). -/
structure FaultRecord where
  /-- The fault code, 1 to 5; 0 when there is no fault. -/
  code : Nat
  /-- For OutOfBoundsAccess the kind, 0 to 3; otherwise 0. -/
  kind : Nat
  /-- The instruction pointer of the faulting instruction. -/
  ip : Int
  /-- The instruction word, or 0 for a FETCH fault. -/
  word : Int
  /-- The failing address, parameter number or value, as R24 says for each code. -/
  addr : Int
deriving DecidableEq, Repr

/-- The record when there is no fault: all fields 0 (10_state.md R24, R32). -/
def FaultRecord.clear : FaultRecord := { code := 0, kind := 0, ip := 0, word := 0, addr := 0 }

/-- The four points at which an address is checked (60_exceptions.md R152). -/
inductive AccessKind where
  | fetch | param | operand | dest
deriving DecidableEq, Repr

/-- The causes a step can raise, each with what its record needs (60_exceptions.md R150). These are the faults of the
spec: raising one is a next state, in which the core has entered FAULTED (R156). -/
inductive Cause where
  /-- InvalidOpcode (R151). -/
  | invalidOpcode
  /-- OutOfBoundsAccess, with the address that failed the check (R152). -/
  | outOfBounds (kind : AccessKind) (addr : Int)
  /-- InputExhausted (R153). -/
  | inputExhausted
  /-- InvalidMode, with the parameter number of the offending digit (R154). -/
  | invalidMode (k : Nat)
  /-- WordOverflow, with the value that does not fit (R155). -/
  | wordOverflow (value : Int)
deriving DecidableEq, Repr

/-- The architectural state (10_state.md) and, beside it, the core's parameters. -/
structure State where
  /-- The parameters `W` and `INPUT_MODE` (00_scope.md R5): configuration that no step changes (assumption log 2). -/
  config : Config
  /-- `mem` and its length `N` (R21). -/
  mem : Memory
  /-- `ip`, the instruction pointer; any Word value (R22). -/
  ip : Int
  /-- `run`, the run state (R23). -/
  run : Run
  /-- `fault`, the fault record (R24). -/
  fault : FaultRecord
  /-- `inq`, every value the host has supplied, oldest first (R25). -/
  inq : List Int
  /-- The cursor of `inq`: how many of its values have been taken (R25). -/
  cursor : Nat
  /-- `outq`, every value emitted, oldest first (R26). -/
  outq : List Int
deriving DecidableEq, Repr

/-- Why no step is defined in a state. None is raised by an instruction: `step` answers them when `run` is not RUNNING,
because 30_encoding.md R80 defines a step only when it is. Each is safe: the hardware takes no step there either. -/
inductive Fault where
  /-- `run = WAIT_INPUT`: no step until the host appends input (60_exceptions.md R162). Raised by `step`. Safe. -/
  | waitingForInput
  /-- `run = HALTED`: no further step, only reset (44_halt.md R140). Raised by `step`. Safe. -/
  | alreadyHalted
  /-- `run = FAULTED`: no further step, only reset (60_exceptions.md R159). Raised by `step`. Safe. -/
  | alreadyFaulted
deriving DecidableEq, Repr

/-- Why an instruction or a reset has no meaning. -/
inductive Refusal where
  /-- An instruction the model gives no meaning yet; raised by `exec`'s refused arms, of which there are none. Safe. -/
  | notModelled (mnemonic : String)
  /-- The configuration's word width is below 16 bits (00_scope.md R5). Raised by the host's reset, `boot`, only.
  Safe: the spec refuses it too. -/
  | widthTooSmall
  /-- The image breaks `N ≤ 2^(W-1) - 4` (70_reset_and_hazards.md R182). Raised by `boot` only. Safe. -/
  | imageTooLong
  /-- An image word is outside the Word range (70_reset_and_hazards.md R182). Raised by `boot` only. Safe. -/
  | imageWordOutOfRange
deriving DecidableEq, Repr

/-- The memory of the empty image, `N = 0` (70_reset_and_hazards.md R182). -/
def Memory.empty : Memory := { size := 0, cells := [] }

/-- The state right after a reset with the empty image and no input (10_state.md R32), with the normative `W = ∞` and
`INPUT_MODE = batch` (assumption log 3). `boot` in Machine/External.lean is the reset with any image, input and
parameters (assumption log 4). -/
def State.reset : State :=
  { config := { width := .unbounded, inputMode := .batch }
    mem := Memory.empty
    ip := 0
    run := .running
    fault := FaultRecord.clear
    inq := []
    cursor := 0
    outq := [] }

end Sys2Proof.Machine
end

