-- ==== Sys2Proof/Machine/Ops.lean ====
section
/-! DEFINITION. The named operations over memory, the channels and the registers, and fault entry.

The memory controller's read and write (20_memory.md R41, R42), the channel primitives (10_state.md R25, R26;
41_io.md R112), the writes of the instruction pointer and the run state, and `raise` (60_exceptions.md R156), which
every fault of every instruction goes through. There is no return from a fault (R159): reset is the only way out
(Machine/External.lean). -/

namespace Sys2Proof.Machine

/-! ### The memory array -/

/-- The canonical form of a memory: rising addresses, each inside the array, and no listed word equal to 0. -/
abbrev Memory.wf (m : Memory) : Prop :=
  m.cells.Pairwise (fun c d => c.1 < d.1) ∧ ∀ c ∈ m.cells, c.1 < m.size ∧ c.2 ≠ 0

/-- What an address in `[0, N)` that `cells` does not list holds. -/
def unlistedWord : Int := 0

/-- The word a list of cells holds at an address. -/
def cellWord : List (Nat × Int) → Nat → Int
  | [], _ => unlistedWord
  | (b, v) :: cs, a => if b = a then v else cellWord cs a

/-- Put a cell into a list of cells with rising addresses. -/
def insertCell (a : Nat) (v : Int) : List (Nat × Int) → List (Nat × Int)
  | [] => [(a, v)]
  | (b, x) :: cs => if a < b then (a, v) :: (b, x) :: cs else (b, x) :: insertCell a v cs

/-- Write one word into a list of cells: the word 0 leaves no cell behind, so equal memories are equal lists. -/
def setCell (a : Nat) (v : Int) (cs : List (Nat × Int)) : List (Nat × Int) :=
  let rest := cs.filter (fun c => decide (c.1 ≠ a))
  if v = unlistedWord then rest else insertCell a v rest

/-- The bounds comparator: `0 ≤ a` and `a < N`, as signed integers (20_memory.md R43). -/
def Memory.inBounds (m : Memory) (a : Int) : Bool := decide (0 ≤ a) && decide (a < (m.size : Int))

/-- `MemRead(a, 1)`: one word, or none where the access is out of bounds (20_memory.md R41). The caller names the
access kind of the fault. -/
def Memory.read (m : Memory) (a : Int) : Option Int :=
  if m.inBounds a then some (cellWord m.cells a.toNat) else none

/-- `MemWrite(a, 1, v)`: the word at `a` becomes `v` and every other word is unchanged; none where the access is out
of bounds (20_memory.md R42). -/
def Memory.write (m : Memory) (a v : Int) : Option Memory :=
  if m.inBounds a then some { m with cells := setCell a.toNat v m.cells } else none

/-- The cells of the words of an image, its first word at address `a`. -/
def imageCells : (a : Nat) → List Int → List (Nat × Int)
  | _, [] => []
  | a, v :: vs => if v = unlistedWord then imageCells (a + 1) vs else (a, v) :: imageCells (a + 1) vs

/-- The memory array loaded from a program image: `N` is its length (70_reset_and_hazards.md R180). -/
def Memory.ofImage (image : List Int) : Memory := { size := image.length, cells := imageCells 0 image }

/-- All words of the array in address order, as the host reads them at the end (70_reset_and_hazards.md R185). -/
def Memory.toImage (m : Memory) : List Int := (List.range m.size).map (cellWord m.cells)

/-! ### Writes of single pieces of state -/

def State.setMem (s : State) (m : Memory) : State := { s with mem := m }

/-- `ip <- v`; the value is not checked (30_encoding.md R82, 10_state.md R22). -/
def State.setIp (s : State) (v : Int) : State := { s with ip := v }

def State.setRun (s : State) (r : Run) : State := { s with run := r }

def State.setFault (s : State) (f : FaultRecord) : State := { s with fault := f }

/-- The incrementer: `ip + 1 + n` for `n` parameters, with no wrap (30_encoding.md R81). -/
def State.advance (s : State) (n : Nat) : State := s.setIp (s.ip + 1 + n)

/-! ### The channels -/

/-- `InPeek()`: the value at the cursor; none exactly when `InEmpty()` (41_io.md R112). -/
def State.inPeek (s : State) : Option Int := s.inq[s.cursor]?

/-- `InEmpty()`: the cursor is at the end of the sequence (41_io.md R112), or beyond it (assumption log 8). -/
def State.inEmpty (s : State) : Bool := s.inPeek.isNone

/-- `InPop()`: the cursor moves past one value (10_state.md R25, 41_io.md R112). -/
def State.inPop (s : State) : State := { s with cursor := s.cursor + 1 }

/-- `OutPush(v)`: `v` is appended, and the channel never refuses it (10_state.md R26). -/
def State.outPush (s : State) (v : Int) : State := { s with outq := s.outq ++ [v] }

/-! ### Fault entry -/

/-- The code of an access kind (60_exceptions.md R152). -/
def AccessKind.code : AccessKind → Nat
  | .fetch => 0
  | .param => 1
  | .operand => 2
  | .dest => 3

/-- The fault code (60_exceptions.md R150). -/
def Cause.code : Cause → Nat
  | .invalidOpcode => 1
  | .outOfBounds _ _ => 2
  | .inputExhausted => 3
  | .invalidMode _ => 4
  | .wordOverflow _ => 5

/-- The recorded kind: of OutOfBoundsAccess only (10_state.md R24). -/
def Cause.kind : Cause → Nat
  | .outOfBounds k _ => k.code
  | .invalidOpcode | .inputExhausted | .invalidMode _ | .wordOverflow _ => 0

/-- The recorded `addr` (10_state.md R24, 60_exceptions.md R150). -/
def Cause.addr : Cause → Int
  | .outOfBounds _ a => a
  | .invalidMode k => k
  | .wordOverflow v => v
  | .invalidOpcode | .inputExhausted => 0

/-- The fault record of a cause raised at `ip` by the instruction word `word` (60_exceptions.md R156). -/
def Cause.record (c : Cause) (ip word : Int) : FaultRecord :=
  { code := c.code, kind := c.kind, ip := ip, word := word, addr := c.addr }

/-- Fault entry: FAULTED, with the record written, and nothing else changed (60_exceptions.md R156). `word` is the
instruction word fetched, or 0 for a FETCH fault. -/
def enterFault (c : Cause) (word : Int) (s : State) : State :=
  (s.setRun .faulted).setFault (c.record s.ip word)

/-- `raise F(info)` as the end of a step: the next state is the one fault entry gives (60_exceptions.md R156). -/
def raise (c : Cause) (word : Int) (s : State) : Host.Outcome State Fault Refusal :=
  .next (enterFault c word s)

/-! ### Status codes -/

/-- The 2-bit code of the run state (10_state.md R23, 70_reset_and_hazards.md R186). -/
def Run.code : Run → Nat
  | .running => 0
  | .waitInput => 1
  | .halted => 2
  | .faulted => 3

end Sys2Proof.Machine
end

