-- ==== Sys2Proof/Machine/Operands.lean ====
section
/-! DEFINITION. The address translator and the operand phases of a step (30_encoding.md R70 to R72, R80).

Phase 4 resolves the source parameters in increasing order, and phase 5 checks the destination; an instruction's rule
then runs on operands that are all resolved. -/

namespace Sys2Proof.Machine

/-- `val(k)`: the address translator's operand for a source parameter (30_encoding.md R71). -/
def operand (m : Mode) (raw : Int) (mem : Memory) : Except Cause Int :=
  match m with
  | .immediate => .ok raw
  | .position =>
    match mem.read raw with
    | some v => .ok v
    | none => .error (.outOfBounds .operand raw)

/-- Phase 4 for the instructions with two source parameters: 1 first, then 2 (20_memory.md R48). -/
def operands2 (m1 m2 : Mode) (raw1 raw2 : Int) (mem : Memory) : Except Cause (Int × Int) :=
  match operand m1 raw1 mem with
  | .error c => .error c
  | .ok a =>
    match operand m2 raw2 mem with
    | .error c => .error c
    | .ok b => .ok (a, b)

/-- The write address of a destination parameter: the parameter word, whatever its mode (30_encoding.md R70). -/
def destination (_mode : Mode) (raw : Int) : Int := raw

/-- The commit of an instruction that writes memory: the write at the destination, then the advance by the width
`1 + n` (30_encoding.md R80 phase 6, R82). Phase 5 has checked the address, so in a step the write succeeds. -/
def commitWrite (word addr v : Int) (n : Nat) (s : State) : Host.Outcome State Fault Refusal :=
  match s.mem.write addr v with
  | none => raise (.outOfBounds .dest addr) word s
  | some mem => .next ((s.setMem mem).advance n)

/-- Phases 4 and 5 of an instruction with two sources and a destination, then its rule `act` on the operands
(30_encoding.md R80). -/
def withOperands (word : Int) (m1 m2 m3 : Mode) (p1 p2 p3 : Int) (s : State)
    (act : (a b : Int) → (dest : Int) → Host.Outcome State Fault Refusal) : Host.Outcome State Fault Refusal :=
  match operands2 m1 m2 p1 p2 s.mem with
  | .error c => raise c word s
  | .ok (a, b) =>
    if s.mem.inBounds (destination m3 p3) then act a b (destination m3 p3)
    else raise (.outOfBounds .dest (destination m3 p3)) word s

/-- The ALU's range check and the commit: a result that is no Word raises WordOverflow and writes nothing
(40_arithmetic.md R102). -/
def commitResult (word addr r : Int) (n : Nat) (s : State) : Host.Outcome State Fault Refusal :=
  if fits s.config r then commitWrite word addr r n s else raise (.wordOverflow r) word s

/-- The rule of a conditional jump: both operands are resolved first, then the target is loaded, unchecked, when the
condition holds, and the pointer advances by 3 when it does not (42_jumps.md R120 to R122). -/
def jumpWhen (cond : Int → Bool) (word : Int) (m1 m2 : Mode) (p1 p2 : Int) (s : State) :
    Host.Outcome State Fault Refusal :=
  match operands2 m1 m2 p1 p2 s.mem with
  | .error c => raise c word s
  | .ok (c, target) => .next (if cond c then s.setIp target else s.advance 2)

end Sys2Proof.Machine
end

