-- ==== Sys2Proof/Machine/Arith.lean ====
section
/-! DEFINITION. The arithmetic instructions ADD and MULT (40_arithmetic.md). -/

namespace Sys2Proof.Machine

/-- ADD: `mem[p3] = val(p1) + val(p2)`, exact (40_arithmetic.md R100, R102). -/
def execAdd (m1 m2 m3 : Mode) (p1 p2 p3 : Int) (s : State) : Host.Outcome State Fault Refusal :=
  let word := encodeWord (.add m1 m2 m3 p1 p2 p3)
  withOperands word m1 m2 m3 p1 p2 p3 s fun a b dest => commitResult word dest (a + b) 3 s

/-- MULT: `mem[p3] = val(p1) * val(p2)`, exact (40_arithmetic.md R101, R102). -/
def execMult (m1 m2 m3 : Mode) (p1 p2 p3 : Int) (s : State) : Host.Outcome State Fault Refusal :=
  let word := encodeWord (.mult m1 m2 m3 p1 p2 p3)
  withOperands word m1 m2 m3 p1 p2 p3 s fun a b dest => commitResult word dest (a * b) 3 s

end Sys2Proof.Machine
end

