-- ==== Sys2Proof/Machine/Compare.lean ====
section
/-! DEFINITION. The comparison instructions LESS-THAN and EQUALS (43_compare.md). Their results 0 and 1 always fit a
Word, so they never raise WordOverflow. -/

namespace Sys2Proof.Machine

/-- LESS-THAN: `mem[p3] = 1 if val(p1) < val(p2) else 0` (43_compare.md R130). -/
def execLessThan (m1 m2 m3 : Mode) (p1 p2 p3 : Int) (s : State) : Host.Outcome State Fault Refusal :=
  let word := encodeWord (.lessThan m1 m2 m3 p1 p2 p3)
  withOperands word m1 m2 m3 p1 p2 p3 s fun a b dest => commitWrite word dest (boolWord (lessThanTest a b)) 3 s

/-- EQUALS: `mem[p3] = 1 if val(p1) == val(p2) else 0` (43_compare.md R131). -/
def execEquals (m1 m2 m3 : Mode) (p1 p2 p3 : Int) (s : State) : Host.Outcome State Fault Refusal :=
  let word := encodeWord (.equals m1 m2 m3 p1 p2 p3)
  withOperands word m1 m2 m3 p1 p2 p3 s fun a b dest => commitWrite word dest (boolWord (equalsTest a b)) 3 s

end Sys2Proof.Machine
end

