-- ==== Sys2Proof/Machine/Halt.lean ====
section
/-! DEFINITION. HALT (44_halt.md). -/

namespace Sys2Proof.Machine

/-- HALT: the run is over; `ip` stays at the HALT word, and memory and channels are unchanged (44_halt.md R140). -/
def execHalt (s : State) : Host.Outcome State Fault Refusal := .next (s.setRun .halted)

end Sys2Proof.Machine
end

