-- ==== Sys2Proof/Machine/Io.lean ====
section
/-! DEFINITION. The channel instructions STORE (input) and OUTPUT (41_io.md). -/

namespace Sys2Proof.Machine

/-- STORE: `mem[p1] = next value read from input channel` (41_io.md R110). The destination is checked before the
channel is looked at. An empty channel faults in batch mode and makes the core wait in interactive mode, with `ip` still
at the STORE (60_exceptions.md R153, R162). A value that is no Word is not consumed (R155). -/
def execStore (m1 : Mode) (p1 : Int) (s : State) : Host.Outcome State Fault Refusal :=
  let word := encodeWord (.store m1 p1)
  let dest := destination m1 p1
  if s.mem.inBounds dest then
    match s.inPeek with
    | none =>
      match s.config.inputMode with
      | .batch => raise .inputExhausted word s
      | .interactive => .next (s.setRun .waitInput)
    | some v =>
      if fits s.config v then commitWrite word dest v 1 s.inPop
      else raise (.wordOverflow v) word s
  else raise (.outOfBounds .dest dest) word s

/-- OUTPUT: `emit val(p1) to output channel` (41_io.md R111). -/
def execOutput (m1 : Mode) (p1 : Int) (s : State) : Host.Outcome State Fault Refusal :=
  match operand m1 p1 s.mem with
  | .error c => raise c (encodeWord (.output m1 p1)) s
  | .ok v => .next ((s.outPush v).advance 1)

end Sys2Proof.Machine
end

