-- ==== Sys2Proof/Machine/Jump.lean ====
section
/-! DEFINITION. The conditional jumps JUMP-IF-TRUE and JUMP-IF-FALSE (42_jumps.md). -/

namespace Sys2Proof.Machine

/-- JUMP-IF-TRUE: `if val(p1) != 0: instruction pointer = val(p2); else advance normally` (42_jumps.md R120). -/
def execJumpIfTrue (m1 m2 : Mode) (p1 p2 : Int) (s : State) : Host.Outcome State Fault Refusal :=
  jumpWhen nonZeroTest (encodeWord (.jumpIfTrue m1 m2 p1 p2)) m1 m2 p1 p2 s

/-- JUMP-IF-FALSE: `if val(p1) == 0: instruction pointer = val(p2); else advance normally` (42_jumps.md R121). -/
def execJumpIfFalse (m1 m2 : Mode) (p1 p2 : Int) (s : State) : Host.Outcome State Fault Refusal :=
  jumpWhen zeroTest (encodeWord (.jumpIfFalse m1 m2 p1 p2)) m1 m2 p1 p2 s

end Sys2Proof.Machine
end

