-- ==== Sys2Proof/Machine/Dispatch.lean ====
section
/-! DEFINITION. The meaning of each instruction: phases 4 to 6 of a step (30_encoding.md R80), one arm per opcode. -/

namespace Sys2Proof.Machine

def exec (i : Instr) (s : State) : Host.Outcome State Fault Refusal :=
  match i with
  | .add m1 m2 m3 p1 p2 p3 => Sys2Proof.Machine.execAdd m1 m2 m3 p1 p2 p3 s
  | .mult m1 m2 m3 p1 p2 p3 => Sys2Proof.Machine.execMult m1 m2 m3 p1 p2 p3 s
  | .store m1 p1 => Sys2Proof.Machine.execStore m1 p1 s
  | .output m1 p1 => Sys2Proof.Machine.execOutput m1 p1 s
  | .jumpIfTrue m1 m2 p1 p2 => Sys2Proof.Machine.execJumpIfTrue m1 m2 p1 p2 s
  | .jumpIfFalse m1 m2 p1 p2 => Sys2Proof.Machine.execJumpIfFalse m1 m2 p1 p2 s
  | .lessThan m1 m2 m3 p1 p2 p3 => Sys2Proof.Machine.execLessThan m1 m2 m3 p1 p2 p3 s
  | .equals m1 m2 m3 p1 p2 p3 => Sys2Proof.Machine.execEquals m1 m2 m3 p1 p2 p3 s
  | .halt => Sys2Proof.Machine.execHalt s

end Sys2Proof.Machine
end

