-- ==== Sys2Proof/Machine/Fetch.lean ====
section
/-! DEFINITION. Phases 1 to 3 of a step: fetch, decode and parameter fetch (30_encoding.md R80). -/

namespace Sys2Proof.Machine

/-- The cause of a decoder fault (60_exceptions.md R151, R154). -/
def causeOfDecode : DecodeFault → Cause
  | .invalidOpcode => .invalidOpcode
  | .invalidMode k => .invalidMode k

/-- Phase 3: the `n` parameter words from number `k` on, in increasing order; the first one out of bounds is the fault
(30_encoding.md R72). -/
def readParams (mem : Memory) (ip : Int) : (n : Nat) → (k : Nat) → Except Cause (List Int)
  | 0, _ => .ok []
  | n + 1, k =>
    match mem.read (ip + k) with
    | none => .error (.outOfBounds .param (ip + k))
    | some v =>
      match readParams mem ip n (k + 1) with
      | .error c => .error c
      | .ok vs => .ok (v :: vs)

/-- Phases 1 to 3 at the instruction pointer: the instruction to run, or the cause to raise and the instruction word
it records, 0 where the fetch itself failed (30_encoding.md R80). -/
def fetchInstr (s : State) : Except (Cause × Int) Instr :=
  match s.mem.read s.ip with
  | none => .error (.outOfBounds .fetch s.ip, 0)
  | some w =>
    match decodeWord w with
    | .error e => .error (causeOfDecode e, w)
    | .ok h =>
      match readParams s.mem s.ip h.op.paramCount 1 with
      | .error c => .error (c, w)
      | .ok ps => .ok (h.instr ps)

/-- A memory array at least `n` words long: the words added hold 0. -/
def Memory.growTo (m : Memory) (n : Nat) : Memory := { m with size := max m.size n }

/-- Load words into the array from address `a` on. -/
def Memory.load (m : Memory) (a : Nat) : List Int → Memory
  | [] => m
  | v :: vs => ({ m with cells := setCell a v m.cells }).load (a + 1) vs

/-- A running core whose array holds the words `ws` at the instruction pointer, the array grown where it is too short
(at reset it has no words). A pointer below 0, where no word can stand, is put to 0 first. -/
def State.placeProgram (s : State) (ws : List Int) : State :=
  let a := s.ip.toNat
  ((s.setIp a).setRun .running).setMem ((s.mem.growTo (a + ws.length)).load a ws)

end Sys2Proof.Machine
end

