-- ==== Sys2Proof/Machine/Step.lean ====
section
/-! DEFINITION. One step of the core (30_encoding.md R80, R86). -/

namespace Sys2Proof.Machine

/-- One step executes one instruction, and is defined only when `run = RUNNING` (30_encoding.md R80). A fault of phases
1 to 3 is taken as any other is. -/
def step (s : State) : Host.Outcome State Fault Refusal :=
  match s.run with
  | .running =>
    match fetchInstr s with
    | .error (c, word) => raise c word s
    | .ok i => exec i s
  | .waitInput => .fault .waitingForInput
  | .halted => .fault .alreadyHalted
  | .faulted => .fault .alreadyFaulted

/-- The host's table word as the next instruction: the value `w` as the instruction word at `ip`, with three zero
parameter words after it, the array long enough to hold them, and the core running (assumption logs 4 and 5). -/
def State.withFetchWord (s : State) (_nbits w : Nat) : State := s.placeProgram [(w : Int), 0, 0, 0]

end Sys2Proof.Machine
end

