-- ==== Sys2Proof/Machine/Asm.lean ====
section
/-! DEFINITION. The assembler of the spec's own examples (30_encoding.md R73, R78, R79; 92_eei_decisions.md D12).

It reads a program's lines as text, and makes the image that the host loads; it has no effect on the machine. There are
no pseudo-instructions (R79). What a label's name may be, which characters separate, and that no two lines have one
label are the model's choices (assumption log 10). -/

namespace Sys2Proof.Asm

/-- An operand's integer: written out, or a label's address. -/
inductive Value where
  | int (v : Int)
  | label (name : String)
deriving DecidableEq, Repr

/-- An operand: `#` before the value is immediate mode, a bare value is position mode. -/
structure Operand where
  mode : Mode
  value : Value
deriving DecidableEq, Repr

/-- A statement: an instruction with its operands, or `.word` with its integers. -/
inductive Statement where
  | instr (op : Opcode) (operands : List Operand)
  | word (values : List Int)
deriving DecidableEq, Repr

/-- A line: an optional label and an optional statement. -/
structure Line where
  label : Option String
  statement : Option Statement
deriving DecidableEq, Repr

/-- The number of words a line takes in the image (30_encoding.md R64). -/
def lineSize (l : Line) : Nat :=
  match l.statement with
  | none => 0
  | some (.instr op _) => 1 + op.paramCount
  | some (.word vs) => vs.length

/-- The labels of the lines with their addresses, the first line at address `a`. -/
def labels : (a : Nat) → List Line → List (String × Nat)
  | _, [] => []
  | a, l :: ls =>
    match l.label with
    | none => labels (a + lineSize l) ls
    | some name => (name, a) :: labels (a + lineSize l) ls

/-- The integer of an operand; none for a label that no line has. -/
def valueOf (table : List (String × Nat)) : Value → Option Int
  | .int v => some v
  | .label name => (table.lookup name).map (fun a => (a : Int))

/-- The integers of an instruction's operands, in order. -/
def valuesOf (table : List (String × Nat)) : List Operand → Option (List Int)
  | [] => some []
  | o :: os =>
    match valueOf table o.value, valuesOf table os with
    | some v, some vs => some (v :: vs)
    | _, _ => none

/-- The mode digit of operand `k`, counted from 0; 0 where there is no such operand (30_encoding.md R73). -/
def digitOf (os : List Operand) (k : Nat) : Nat := (os[k]?.map (fun o => o.mode.digit)).getD 0

/-- The words of a line; none where it has the wrong number of operands or a label that no line has. -/
def assembleLine (table : List (String × Nat)) (l : Line) : Option (List Int) :=
  match l.statement with
  | none => some []
  | some (.word vs) => some vs
  | some (.instr op os) =>
    if os.length = op.paramCount then
      (valuesOf table os).map fun vs => (wordOf op.number (digitOf os 0) (digitOf os 1) (digitOf os 2) : Int) :: vs
    else none

/-- The words of all lines in order, with the labels of a table. -/
def assembleLines (table : List (String × Nat)) : List Line → Option (List Int)
  | [] => some []
  | l :: ls =>
    match assembleLine table l, assembleLines table ls with
    | some ws, some rest => some (ws ++ rest)
    | _, _ => none

/-- The image a program assembles to, its first line at address 0; none where two lines have one label. -/
def assemble (p : List Line) : Option (List Int) :=
  let table := labels 0 p
  if (table.map (fun e => e.1)).Nodup then assembleLines table p else none

/-- A listing shows each word of an image with its address (30_encoding.md R78). -/
def listing (image : List Int) : List (Nat × Int) := image.zipIdx.map fun e => (e.2, e.1)

/-! ### Reading a line of text -/

/-- The tokens of a line. -/
inductive Token where
  | name (cs : List Char)
  | colon
  | comma
  | hash
deriving DecidableEq, Repr

/-- The token of a character that is one by itself. -/
def Token.ofChar : Char → Option Token
  | ':' => some .colon
  | ',' => some .comma
  | '#' => some .hash
  | _ => none

/-- Put the name read so far, its characters reversed, before the tokens after it. -/
def endName (pending : List Char) (ts : List Token) : List Token :=
  match pending with
  | [] => ts
  | c :: cs => .name (c :: cs).reverse :: ts

/-- The tokens of a text without its comment: names end at a blank, a tab or a token of one character. -/
def tokens : (pending : List Char) → List Char → List Token
  | pending, [] => endName pending []
  | pending, c :: cs =>
    if c = ' ' ∨ c = '\t' then endName pending (tokens [] cs)
    else
      match Token.ofChar c with
      | some t => endName pending (t :: tokens [] cs)
      | none => tokens (c :: pending) cs

/-- The number that decimal digits write, `acc` before them; none at a character that is no digit. -/
def readDigits : (acc : Nat) → List Char → Option Nat
  | acc, [] => some acc
  | acc, c :: cs => if c.isDigit then readDigits (10 * acc + (c.toNat - 48)) cs else none

/-- `int`: decimal digits, at least one, with an optional minus sign before them. -/
def readInt : List Char → Option Int
  | [] => none
  | '-' :: [] => none
  | '-' :: c :: cs => (readDigits 0 (c :: cs)).map fun n => -(n : Int)
  | c :: cs => (readDigits 0 (c :: cs)).map fun n => (n : Int)

/-- `label`: a letter or an underscore, then letters, digits and underscores. -/
def readLabel : List Char → Option String
  | [] => none
  | c :: cs =>
    if (c.isAlpha || c == '_') && cs.all (fun d => d.isAlphanum || d == '_') then some (String.ofList (c :: cs))
    else none

/-- `int` or `label`, the value of an operand. -/
def readValue (cs : List Char) : Option Value :=
  match readInt cs with
  | some v => some (.int v)
  | none => (readLabel cs).map .label

/-- The operands of an instruction, at least one, with commas between them. -/
def readOperands : List Token → Option (List Operand)
  | [.name w] => (readValue w).map fun v => [⟨.position, v⟩]
  | [.hash, .name w] => (readValue w).map fun v => [⟨.immediate, v⟩]
  | .name w :: .comma :: ts =>
    match readValue w, readOperands ts with
    | some v, some os => some (⟨.position, v⟩ :: os)
    | _, _ => none
  | .hash :: .name w :: .comma :: ts =>
    match readValue w, readOperands ts with
    | some v, some os => some (⟨.immediate, v⟩ :: os)
    | _, _ => none
  | _ => none

/-- The integers of a `.word`, at least one, with commas between them. -/
def readInts : List Token → Option (List Int)
  | [.name w] => (readInt w).map fun v => [v]
  | .name w :: .comma :: ts =>
    match readInt w, readInts ts with
    | some v, some vs => some (v :: vs)
    | _, _ => none
  | _ => none

/-- The opcode of a mnemonic, spelt as the opcode table spells it. -/
def readMnemonic (cs : List Char) : Option Opcode :=
  [Opcode.add, .mult, .store, .output, .jumpIfTrue, .jumpIfFalse, .lessThan, .equals, .halt].find? fun op =>
    decide (op.mnemonic = String.ofList cs)

/-- A statement, or nothing. -/
def readStatement : List Token → Option (Option Statement)
  | [] => some none
  | .name w :: ts =>
    if w = ['.', 'w', 'o', 'r', 'd'] then (readInts ts).map fun vs => some (.word vs)
    else
      match readMnemonic w, ts with
      | none, _ => none
      | some op, [] => some (some (.instr op []))
      | some op, t :: ts => (readOperands (t :: ts)).map fun os => some (.instr op os)
  | _ :: _ => none

/-- `line := [label ":"] [statement] [";" comment]` (30_encoding.md R78). -/
def readLine (text : List Char) : Option Line :=
  match tokens [] (text.takeWhile fun c => decide (c ≠ ';')) with
  | .name w :: .colon :: ts =>
    match readLabel w, readStatement ts with
    | some l, some st => some { label := some l, statement := st }
    | _, _ => none
  | ts => (readStatement ts).map fun st => { label := none, statement := st }

/-- The lines of a program; none where one cannot be read. -/
def readLines : List (List Char) → Option (List Line)
  | [] => some []
  | t :: ts =>
    match readLine t, readLines ts with
    | some l, some ls => some (l :: ls)
    | _, _ => none

/-- The image of a program written as lines of text. -/
def assembleText (program : List (List Char)) : Option (List Int) := (readLines program).bind assemble

end Sys2Proof.Asm
end

