-- ==== Sys2Proof/WellFormed.lean ====
section
/-! DEFINITION. What counts as a well-formed configuration and instruction.

The modes of an `Instr` are legal by their type. With a finite word width, the width must be at least 16 bits and every
parameter word must be a Word (00_scope.md R5). -/

namespace Sys2Proof

/-- 00_scope.md R5: a finite width is at least 16 bits. -/
def Config.wf (c : Config) : Bool :=
  match c.width with
  | .unbounded => true
  | .finite bits => decide (16 ≤ bits)

/-- Every parameter word of the instruction is a Word of this core (00_scope.md R5, 30_encoding.md R64). -/
def Instr.wf (c : Config) (i : Instr) : Bool := i.params.all (Machine.fits c)

end Sys2Proof
end

