-- ==== Sys2Proof/Machine/External.lean ====
section
/-! DEFINITION. What the host can do to the core (70_reset_and_hazards.md R180 to R186): reset with an image and an
input sequence, append input, read the status, and read memory when the run is over. It has no other move: no write to
memory during a run and no cancel (R185). -/

namespace Sys2Proof.Machine

/-- Every word of the image is a Word (70_reset_and_hazards.md R182). -/
def imageFits (c : Config) (image : List Int) : Bool := image.all (fits c)

/-- The state a reset with a program image and an input sequence leaves (70_reset_and_hazards.md R180, R181). -/
def bootState (c : Config) (image input : List Int) : State :=
  { config := c
    mem := Memory.ofImage image
    ip := 0
    run := .running
    fault := FaultRecord.clear
    inq := input
    cursor := 0
    outq := [] }

/-- A core with parameters `c` started with an image and an input sequence. With a finite `W`, an image that breaks the
boot requirements is refused and the run does not start; with `W = ∞` every check passes (00_scope.md R5,
70_reset_and_hazards.md R182). -/
def boot (c : Config) (image input : List Int) : Host.Outcome State Fault Refusal :=
  if c.wf then
    if sizeFits c image.length then
      if imageFits c image then .next (bootState c image input) else .refused .imageWordOutOfRange
    else .refused .imageTooLong
  else .refused .widthTooSmall

/-- The host appends one input value. A waiting core runs again, with the same `ip`, so that its STORE is executed
again from the start (60_exceptions.md R162, 70_reset_and_hazards.md R185). -/
def State.appendInput (s : State) (v : Int) : State :=
  { s with
    inq := s.inq ++ [v]
    run := match s.run with
      | .waitInput => .running
      | .running => .running
      | .halted => .halted
      | .faulted => .faulted }

/-- The host's two moves (70_reset_and_hazards.md R185). -/
inductive HostMove where
  /-- Reset with a program image and an input sequence; allowed at any time. -/
  | reset (image input : List Int)
  /-- Append one input value; allowed at any time. -/
  | append (v : Int)
deriving DecidableEq, Repr

/-- What a move of the host does, between steps. Nothing of the state but the core's parameters survives a reset
(70_reset_and_hazards.md R180). -/
def hostMove (m : HostMove) (s : State) : Host.Outcome State Fault Refusal :=
  match m with
  | .reset image input => boot s.config image input
  | .append v => .next (s.appendInput v)

/-- The status outputs: the 2-bit run code and the fault record, readable at any time between steps
(70_reset_and_hazards.md R186). -/
def hostStatus (s : State) : Nat × FaultRecord := (s.run.code, s.fault)

/-- The host's read of the whole memory, allowed only when the run is over (20_memory.md R54,
70_reset_and_hazards.md R185). -/
def hostReadMemory (s : State) : Option (List Int) :=
  match s.run with
  | .halted | .faulted => some s.mem.toImage
  | .running | .waitInput => none

/-- Up to `fuel` steps, while the core takes steps. The fuel is the executor's, not the core's
(60_exceptions.md R164). -/
def runSteps : (fuel : Nat) → State → State
  | 0, s => s
  | fuel + 1, s =>
    match step s with
    | .next t => runSteps fuel t
    | .fault _ | .refused _ => s

/-- The contract `execute(memory, input, output)`: the final memory and the output sequence of a run that reaches
HALTED within the fuel, and none otherwise (70_reset_and_hazards.md R180, R183). -/
def execute (fuel : Nat) (c : Config) (image input : List Int) : Option (List Int × List Int) :=
  match boot c image input with
  | .next s =>
    let t := runSteps fuel s
    match t.run with
    | .halted => some (t.mem.toImage, t.outq)
    | .running | .waitInput | .faulted => none
  | .fault _ | .refused _ => none

end Sys2Proof.Machine
end

