-- ==== Sys2Proof/Safety.lean ====
section
/-! DEFINITION. How a run stands, the terms the statements are written in, and the invariant that every step keeps. -/

namespace Sys2Proof.Machine

/-- The only final state of a run is HALTED (70_reset_and_hazards.md R183, 60_exceptions.md R159). -/
def State.isFinal (s : State) : Bool := decide (s.run = .halted)

/-- The run has failed: FAULTED, which is not final (70_reset_and_hazards.md R183). -/
def State.hasFailed (s : State) : Bool := decide (s.run = .faulted)

/-- The core waits, and takes no step unless the host appends input (70_reset_and_hazards.md R183). -/
def State.isStuck (s : State) : Bool := decide (s.run = .waitInput)

/-- `a ∈ [0, N)` (20_memory.md R40). -/
def InRange (s : State) (a : Int) : Prop := 0 ≤ a ∧ a < (s.mem.size : Int)

/-- `v` is the operand of a source parameter with this mode and parameter word: the word itself in immediate mode, the
memory word at that address in position mode (30_encoding.md R71). -/
def Resolves (s : State) (m : Mode) (raw v : Int) : Prop :=
  (m = .immediate ∧ v = raw) ∨ (m = .position ∧ s.mem.read raw = some v)

/-- From `s` to `t` the word at `a` became `v`, and every other word of the array reads as before
(20_memory.md R42). -/
def WritesOnly (s t : State) (a v : Int) : Prop :=
  t.mem.size = s.mem.size ∧ t.mem.read a = some v ∧ ∀ x, x ≠ a → t.mem.read x = s.mem.read x

/-- The state fault entry leaves: FAULTED, the record written from its numbers, and all else as in `s`
(60_exceptions.md R156). -/
def faultedWith (s : State) (code kind : Nat) (word addr : Int) : State :=
  { s with run := .faulted, fault := { code := code, kind := kind, ip := s.ip, word := word, addr := addr } }

/-- The source parameters of an instruction in order, each with its mode: column SRC of 30_encoding.md R65. -/
def sourcesOf : Instr → List (Mode × Int)
  | .add m1 m2 _ p1 p2 _ | .mult m1 m2 _ p1 p2 _ | .lessThan m1 m2 _ p1 p2 _ | .equals m1 m2 _ p1 p2 _ =>
    [(m1, p1), (m2, p2)]
  | .jumpIfTrue m1 m2 p1 p2 | .jumpIfFalse m1 m2 p1 p2 => [(m1, p1), (m2, p2)]
  | .output m1 p1 => [(m1, p1)]
  | .store _ _ | .halt => []

/-- The write address of an instruction that has a destination: column DST of 30_encoding.md R65, through the
`destination` every meaning uses. -/
def destOf : Instr → Option Int
  | .add _ _ m3 _ _ p3 | .mult _ _ m3 _ _ p3 | .lessThan _ _ m3 _ _ p3 | .equals _ _ m3 _ _ p3 =>
    some (destination m3 p3)
  | .store m1 p1 => some (destination m1 p1)
  | .output _ _ | .jumpIfTrue _ _ _ _ | .jumpIfFalse _ _ _ _ | .halt => none

/-- `v` is the word that `i` writes at its destination in `s`, when its sources resolve and `v` is a Word: the sum, the
product, the comparison's 1 or 0, the next input value (40_arithmetic.md R100, R101; 43_compare.md R130, R131; 41_io.md
R110). The other instructions write none. -/
def ResultWord (s : State) (i : Instr) (v : Int) : Prop :=
  match i with
  | .add m1 m2 _ p1 p2 _ =>
    ∃ a b, Resolves s m1 p1 a ∧ Resolves s m2 p2 b ∧ v = a + b ∧ fits s.config v = true
  | .mult m1 m2 _ p1 p2 _ =>
    ∃ a b, Resolves s m1 p1 a ∧ Resolves s m2 p2 b ∧ v = a * b ∧ fits s.config v = true
  | .lessThan m1 m2 _ p1 p2 _ =>
    ∃ a b, Resolves s m1 p1 a ∧ Resolves s m2 p2 b ∧ v = if a < b then 1 else 0
  | .equals m1 m2 _ p1 p2 _ =>
    ∃ a b, Resolves s m1 p1 a ∧ Resolves s m2 p2 b ∧ v = if a = b then 1 else 0
  | .store _ _ => s.inq[s.cursor]? = some v ∧ fits s.config v = true
  | .output _ _ | .jumpIfTrue _ _ _ _ | .jumpIfFalse _ _ _ _ | .halt => False

/-- What every state of a run satisfies (`bootState` does, and steps and appended input keep it).
- The width is one R5 admits, `N` obeys its bound, and every word of memory, every emitted value and the instruction
  pointer are Words (00_scope.md R5, 10_state.md R22).
- The memory is in canonical form, and the input cursor is inside its sequence (R25).
- The fault record is clear unless the core is FAULTED, and otherwise names a cause at `ip` (R24).
- A core that halted stands at a HALT word (44_halt.md R140).
- A core that waits stands at a STORE, in interactive mode, with its channel empty (60_exceptions.md R162). -/
structure Inv (s : State) : Prop where
  config_wf : s.config.wf = true
  size_fits : sizeFits s.config s.mem.size = true
  mem_wf : s.mem.wf
  words_fit : ∀ a v, s.mem.read a = some v → fits s.config v = true
  ip_fits : fits s.config s.ip = true
  out_fits : ∀ v ∈ s.outq, fits s.config v = true
  cursor_le : s.cursor ≤ s.inq.length
  record_clear : s.run ≠ .faulted → s.fault = FaultRecord.clear
  record_set : s.run = .faulted → 1 ≤ s.fault.code ∧ s.fault.code ≤ 5 ∧ s.fault.ip = s.ip
  halted_at : s.run = .halted → s.mem.read s.ip = some 99
  waiting_at : s.run = .waitInput →
    s.config.inputMode = .interactive ∧ s.inEmpty = true ∧ (s.mem.read s.ip = some 3 ∨ s.mem.read s.ip = some 103)

end Sys2Proof.Machine
end

