-- ==== Sys2Proof/Certificates/Slice0/Obligations.lean ====
section
/-! DEFINITION. The statements about the model, for the provers. Each names the rule of spec/ it comes from; where it
rests on a choice of the model, the docstring names the assumption log's entry. -/

open Sys2Proof Sys2Proof.Machine

/-! ### Encoding -/

/-- Decoding the words of any instruction, with any modes and any parameter words, gives it back, and leaves the words
after it (30_encoding.md sections 1 and 4: the layout of R60, and R73 as the inverse of R61 and R62). -/
def Obligations.DecodeOfEncodeIsTheInstruction : Prop :=
  ∀ (i : Instr) (rest : List Int), decode (encode i ++ rest) = .ok (i, rest)

/-- A sequence of words that decodes is the encoding of the instruction it decodes to, followed by the rest: no two
sequences have one meaning (30_encoding.md sections 1, 3 and 4: the layout of R60, the decoder's checks R66 to R69, and
the encoding R73 to R75). -/
def Obligations.DecodedWordsAreTheEncoding : Prop :=
  ∀ (ws rest : List Int) (i : Instr), decode ws = .ok (i, rest) → ws = encode i ++ rest

/-- Exactly the 45 listed words decode without a fault (30_encoding.md section 4, the table of R74). -/
def Obligations.ExactlyTheLegalWordsDecode : Prop :=
  legalWords.length = 45 ∧ legalWords.Nodup ∧
  ∀ w : Int, (∃ h, decodeWord w = .ok h) ↔ w ∈ legalWords

/-- The opcode field is `w mod 100`, and the mode digit of parameter `k` is `(w div 10^(k+1)) mod 10`; a legal word's
opcode and modes are those digits, an absent digit reading as 0 (30_encoding.md R61, R62). -/
def Obligations.FieldsAreDecimalDigits : Prop :=
  ∀ w : Nat,
    opcodeField w = w % 100 ∧ (∀ k, modeDigit k w = w / 10 ^ (k + 1) % 10) ∧
    ∀ h, decodeWord (w : Int) = .ok h →
      h.op.number = w % 100 ∧ h.m1.digit = w / 100 % 10 ∧ h.m2.digit = w / 1000 % 10 ∧ h.m3.digit = w / 10000 % 10

/-- Words written out from the table of legal words and the mode digits decode to their instructions (30_encoding.md
sections 1, 2 and 4: R60, R62, R65, R74). -/
def Obligations.SampleWordsDecode : Prop :=
  decode [1002, 4, 3, 4, 33] = .ok (.mult .position .immediate .position 4 3 4, [33]) ∧
  decode [101, -1, 10, 10] = .ok (.add .immediate .position .position (-1) 10 10, []) ∧
  decode [103, 3] = .ok (.store .immediate 3, []) ∧
  decode [4, 50] = .ok (.output .position 50, []) ∧
  decode [1005, 7, 6] = .ok (.jumpIfTrue .position .immediate 7 6, []) ∧
  decode [106, 0, 4] = .ok (.jumpIfFalse .immediate .position 0 4, []) ∧
  decode [10107, 0, 5, 6] = .ok (.lessThan .immediate .position .immediate 0 5 6, []) ∧
  decode [8, 9, 10, 9] = .ok (.equals .position .position .position 9 10 9, []) ∧
  decode [99] = .ok (.halt, [])

/-- With an admitted width every legal instruction word is a Word, so an instruction's words are all Words exactly when
it is well formed (92_eei_decisions.md D1: `W ≥ 16` keeps every legal instruction word representable). -/
def Obligations.EncodedWordsFitExactlyWhenWellFormed : Prop :=
  ∀ (c : Config) (i : Instr), c.wf = true → (i.wf c = true ↔ ∀ w ∈ encode i, fits c w = true)

/-- The assembler makes, of an instruction's mnemonic and operands, the words that encode that opcode with the operands'
modes and values (30_encoding.md section 4, the assembler's encoding R73, and section 5, the syntax R78). -/
def Obligations.AssembledLineIsTheEncoding : Prop :=
  ∀ (table : List (String × Nat)) (label : Option String) (op : Opcode) (os : List Asm.Operand) (vs : List Int),
    os.length = op.paramCount → Asm.valuesOf table os = some vs →
    ∃ h : Head, h.op = op ∧
      (∀ k, k < op.paramCount → [h.m1, h.m2, h.m3][k]? = os[k]?.map Asm.Operand.mode) ∧
      Asm.assembleLine table { label := label, statement := some (.instr op os) } = some (encode (h.instr vs))

/-! ### The step up to the instruction's own phases -/

/-- Where the words at the instruction pointer of a running core are those of `i`, a step is `exec i`. -/
def Obligations.StepRunsTheDecodedInstruction : Prop :=
  ∀ (s : State) (i : Instr), s.run = .running →
    (∀ k : Nat, k < (encode i).length → s.mem.read (s.ip + k) = (encode i)[k]?) →
    step s = exec i s

/-- An instruction pointer outside `[0, N)` faults at the fetch with word 0 (60_exceptions.md section 1, kind FETCH;
90_conflicts.md C1). -/
def Obligations.FetchOutsideMemoryFaults : Prop :=
  ∀ s : State, s.run = .running → ¬ InRange s s.ip → step s = .next (faultedWith s 2 0 0 s.ip)

/-- A negative word, and a word whose two low digits are no opcode, fault InvalidOpcode, whatever its mode digits and
before anything but the instruction word is read (30_encoding.md R67, 60_exceptions.md R151). -/
def Obligations.UnknownOpcodeFaults : Prop :=
  ∀ (s : State) (w : Int), s.run = .running → s.mem.read s.ip = some w →
    (w < 0 ∨ w % 100 ∉ ([1, 2, 3, 4, 5, 6, 7, 8, 99] : List Int)) →
    step s = .next (faultedWith s 1 0 w 0)

/-- The first mode digit that is neither 0 nor 1 faults with its parameter number, a destination's as a source's; if
there is none, a non-zero digit above the last mode digit faults with `n + 1` (30_encoding.md R68, R69). -/
def Obligations.BadModeDigitFaults : Prop :=
  ∀ (s : State) (w : Int) (op : Opcode), s.run = .running → s.mem.read s.ip = some w → 0 ≤ w →
    w % 100 = (op.number : Int) →
    (∀ k : Nat, 1 ≤ k → k ≤ op.paramCount → 1 < w / 10 ^ (k + 1) % 10 →
      (∀ j : Nat, 1 ≤ j → j < k → w / 10 ^ (j + 1) % 10 ≤ 1) →
      step s = .next (faultedWith s 4 0 w k)) ∧
    ((∀ j : Nat, 1 ≤ j → j ≤ op.paramCount → w / 10 ^ (j + 1) % 10 ≤ 1) → w / 10 ^ (op.paramCount + 2) ≠ 0 →
      step s = .next (faultedWith s 4 0 w (op.paramCount + 1)))

/-- The first parameter word that lies outside the array faults, the destination's as a source's, before any operand is
read (30_encoding.md section 4, parameter words). -/
def Obligations.MissingParameterWordFaults : Prop :=
  ∀ (s : State) (w : Int) (h : Head) (k : Nat), s.run = .running → s.mem.read s.ip = some w →
    decodeWord w = .ok h → 1 ≤ k → k ≤ h.op.paramCount →
    (∀ j : Nat, 1 ≤ j → j < k → InRange s (s.ip + j)) → ¬ InRange s (s.ip + k) →
    step s = .next (faultedWith s 2 1 w (s.ip + k))

/-- No step is taken from HALTED, FAULTED or WAIT_INPUT (44_halt.md; 60_exceptions.md sections 3 and 4). That `step`
answers a named fault there is the model's form (assumption log 6). -/
def Obligations.NoStepUnlessRunning : Prop :=
  ∀ s : State,
    (s.run = .halted → step s = .fault .alreadyHalted) ∧
    (s.run = .faulted → step s = .fault .alreadyFaulted) ∧
    (s.run = .waitInput → step s = .fault .waitingForInput)

/-! ### What each instruction does -/

/-- ADD completes with the exact sum at the destination and the pointer advanced by 4 (40_arithmetic.md section 2). -/
def Obligations.AddWritesTheSum : Prop :=
  ∀ (m1 m2 m3 : Mode) (p1 p2 p3 a b : Int) (s : State),
    Resolves s m1 p1 a → Resolves s m2 p2 b → InRange s p3 → fits s.config (a + b) = true →
    ∃ t, exec (.add m1 m2 m3 p1 p2 p3) s = .next t ∧ WritesOnly s t p3 (a + b) ∧
      t = { s with mem := t.mem, ip := s.ip + 4 }

/-- MULT completes with the exact product at the destination and the pointer advanced by 4
(40_arithmetic.md section 2). -/
def Obligations.MultWritesTheProduct : Prop :=
  ∀ (m1 m2 m3 : Mode) (p1 p2 p3 a b : Int) (s : State),
    Resolves s m1 p1 a → Resolves s m2 p2 b → InRange s p3 → fits s.config (a * b) = true →
    ∃ t, exec (.mult m1 m2 m3 p1 p2 p3) s = .next t ∧ WritesOnly s t p3 (a * b) ∧
      t = { s with mem := t.mem, ip := s.ip + 4 }

/-- LESS-THAN completes with 1 or 0 at the destination, the comparison signed and strict (43_compare.md). -/
def Obligations.LessThanWritesTheComparison : Prop :=
  ∀ (m1 m2 m3 : Mode) (p1 p2 p3 a b : Int) (s : State),
    Resolves s m1 p1 a → Resolves s m2 p2 b → InRange s p3 →
    ∃ t, exec (.lessThan m1 m2 m3 p1 p2 p3) s = .next t ∧ WritesOnly s t p3 (if a < b then 1 else 0) ∧
      t = { s with mem := t.mem, ip := s.ip + 4 }

/-- EQUALS completes with 1 or 0 at the destination (43_compare.md). -/
def Obligations.EqualsWritesTheComparison : Prop :=
  ∀ (m1 m2 m3 : Mode) (p1 p2 p3 a b : Int) (s : State),
    Resolves s m1 p1 a → Resolves s m2 p2 b → InRange s p3 →
    ∃ t, exec (.equals m1 m2 m3 p1 p2 p3) s = .next t ∧ WritesOnly s t p3 (if a = b then 1 else 0) ∧
      t = { s with mem := t.mem, ip := s.ip + 4 }

/-- STORE with a value at the cursor completes: the value is at the destination, the cursor past it, the pointer
advanced by 2 (41_io.md). -/
def Obligations.StoreTakesTheNextInput : Prop :=
  ∀ (m1 : Mode) (p1 v : Int) (s : State),
    InRange s p1 → s.inq[s.cursor]? = some v → fits s.config v = true →
    ∃ t, exec (.store m1 p1) s = .next t ∧ WritesOnly s t p1 v ∧
      t = { s with mem := t.mem, cursor := s.cursor + 1, ip := s.ip + 2 }

/-- OUTPUT completes: the operand is appended to the output channel and the pointer advances by 2 (41_io.md). -/
def Obligations.OutputEmitsTheOperand : Prop :=
  ∀ (m1 : Mode) (p1 v : Int) (s : State), Resolves s m1 p1 v →
    exec (.output m1 p1) s = .next { s with outq := s.outq ++ [v], ip := s.ip + 2 }

/-- JUMP-IF-TRUE completes: a non-zero condition loads the target, whatever it is, and a zero one advances by 3
(42_jumps.md). -/
def Obligations.JumpIfTrueSelectsThePointer : Prop :=
  ∀ (m1 m2 : Mode) (p1 p2 c target : Int) (s : State), Resolves s m1 p1 c → Resolves s m2 p2 target →
    exec (.jumpIfTrue m1 m2 p1 p2) s = .next { s with ip := if c ≠ 0 then target else s.ip + 3 }

/-- JUMP-IF-FALSE completes: only a condition equal to 0 loads the target, and any other advances by 3
(42_jumps.md). -/
def Obligations.JumpIfFalseSelectsThePointer : Prop :=
  ∀ (m1 m2 : Mode) (p1 p2 c target : Int) (s : State), Resolves s m1 p1 c → Resolves s m2 p2 target →
    exec (.jumpIfFalse m1 m2 p1 p2) s = .next { s with ip := if c = 0 then target else s.ip + 3 }

/-- HALT sets the run state and nothing else: the pointer stays at the HALT word (44_halt.md). -/
def Obligations.HaltEndsTheRun : Prop :=
  ∀ s : State, exec .halt s = .next { s with run := .halted }

/-- A source in position mode whose address is outside the array faults, the first such one in order, and before the
destination, the channel, the result or a jump's condition is looked at (60_exceptions.md section 2, item 5). -/
def Obligations.FirstBadSourceFaults : Prop :=
  ∀ (i : Instr) (s : State) (before after : List (Mode × Int)) (raw : Int),
    sourcesOf i = before ++ (.position, raw) :: after →
    (∀ x ∈ before, x.1 = .immediate ∨ InRange s x.2) → ¬ InRange s raw →
    exec i s = .next (faultedWith s 2 2 (encodeWord i) raw)

/-- When the sources resolve, a destination outside the array faults, before the input channel or the result is looked
at (60_exceptions.md section 2, item 6; 41_io.md). -/
def Obligations.BadDestinationFaults : Prop :=
  ∀ (i : Instr) (s : State) (d : Int), destOf i = some d →
    (∀ x ∈ sourcesOf i, x.1 = .immediate ∨ InRange s x.2) → ¬ InRange s d →
    exec i s = .next (faultedWith s 2 3 (encodeWord i) d)

/-- WordOverflow: with a finite width, a sum, a product or an input value outside the Word range faults with that value,
writes nothing and consumes nothing; with `W = ∞` every value fits (60_exceptions.md R155). -/
def Obligations.OverflowFaultsAndWritesNothing : Prop :=
  ∀ (s : State) (m1 m2 m3 : Mode) (p1 p2 p3 a b : Int),
    (s.config.width = .unbounded → ∀ v, fits s.config v = true) ∧
    (∀ bits, s.config.width = .finite bits →
      ∀ v, (fits s.config v = true ↔ -(2 : Int) ^ (bits - 1) ≤ v ∧ v ≤ (2 : Int) ^ (bits - 1) - 1)) ∧
    (Resolves s m1 p1 a → Resolves s m2 p2 b → InRange s p3 →
      (fits s.config (a + b) = false →
        exec (.add m1 m2 m3 p1 p2 p3) s =
          .next (faultedWith s 5 0 (encodeWord (.add m1 m2 m3 p1 p2 p3)) (a + b))) ∧
      (fits s.config (a * b) = false →
        exec (.mult m1 m2 m3 p1 p2 p3) s =
          .next (faultedWith s 5 0 (encodeWord (.mult m1 m2 m3 p1 p2 p3)) (a * b)))) ∧
    (InRange s p1 → s.inq[s.cursor]? = some a → fits s.config a = false →
      exec (.store m1 p1) s = .next (faultedWith s 5 0 (encodeWord (.store m1 p1)) a))

/-- STORE on an empty channel: InputExhausted in batch mode, the wait in interactive mode, and nothing else changes
(60_exceptions.md section 1, InputExhausted, and section 3, the input wait). The spec's empty channel has its cursor at
the end of the sequence; that a cursor beyond the end, which no run reaches, is empty too is the model's choice
(assumption log 8). -/
def Obligations.EmptyChannelFaultsOrWaits : Prop :=
  ∀ (s : State) (m1 : Mode) (p1 : Int), InRange s p1 → s.inq.length ≤ s.cursor →
    (s.config.inputMode = .batch →
      exec (.store m1 p1) s = .next (faultedWith s 3 0 (encodeWord (.store m1 p1)) 0)) ∧
    (s.config.inputMode = .interactive → exec (.store m1 p1) s = .next { s with run := .waitInput })

/-- The wait: a STORE on an empty channel in interactive mode leaves the state as it was but for the run state, the core
then takes no step, and an appended value makes it run that STORE again and take that value
(60_exceptions.md R162). -/
def Obligations.WaitIsLiftedByAppendedInput : Prop :=
  ∀ (s : State) (m1 : Mode) (p1 v : Int), s.run = .running → s.config.inputMode = .interactive →
    s.cursor = s.inq.length → s.mem.read s.ip = some (encodeWord (.store m1 p1)) →
    s.mem.read (s.ip + 1) = some p1 → InRange s p1 → fits s.config v = true →
    ∃ t u, step s = .next t ∧ t = { s with run := .waitInput } ∧ step t = .fault .waitingForInput ∧
      t.appendInput v = { s with inq := s.inq ++ [v] } ∧
      step (t.appendInput v) = .next u ∧ WritesOnly s u p1 v ∧
      u = { s with inq := s.inq ++ [v], cursor := s.cursor + 1, mem := u.mem, ip := s.ip + 2 }

/-- A fired jump to a target outside the array completes, and the next step faults at the fetch
(42_jumps.md, corner cases). -/
def Obligations.JumpOutOfRangeFaultsAtTheNextFetch : Prop :=
  ∀ (m1 m2 : Mode) (p1 p2 c target : Int) (s : State), s.run = .running → Resolves s m1 p1 c →
    Resolves s m2 p2 target → ¬ InRange s target →
    (c ≠ 0 → ∃ t, exec (.jumpIfTrue m1 m2 p1 p2) s = .next t ∧ t = { s with ip := target } ∧
      step t = .next (faultedWith t 2 0 0 target)) ∧
    (c = 0 → ∃ t, exec (.jumpIfFalse m1 m2 p1 p2) s = .next t ∧ t = { s with ip := target } ∧
      step t = .next (faultedWith t 2 0 0 target))

/-- A destination's mode has no effect: with the other mode the step ends in the same state, but for the instruction
word a fault records (30_encoding.md section 3, destination parameters). -/
def Obligations.DestinationModeHasNoEffect : Prop :=
  ∀ (i j : Instr) (m1 m2 m3 m3' : Mode) (p1 p2 p3 : Int) (s t : State),
    (i, j) ∈ [(Instr.add m1 m2 m3 p1 p2 p3, Instr.add m1 m2 m3' p1 p2 p3),
      (Instr.mult m1 m2 m3 p1 p2 p3, Instr.mult m1 m2 m3' p1 p2 p3),
      (Instr.lessThan m1 m2 m3 p1 p2 p3, Instr.lessThan m1 m2 m3' p1 p2 p3),
      (Instr.equals m1 m2 m3 p1 p2 p3, Instr.equals m1 m2 m3' p1 p2 p3),
      (Instr.store m3 p1, Instr.store m3' p1)] →
    exec i s = .next t →
    exec j s = .next t ∨
      (t = faultedWith s t.fault.code t.fault.kind (encodeWord i) t.fault.addr ∧
        exec j s = .next (faultedWith s t.fault.code t.fault.kind (encodeWord j) t.fault.addr))

/-- An instruction whose destination is one of its position-mode source addresses reads the old value
(30_encoding.md R85). -/
def Obligations.SourcesAreReadBeforeTheWrite : Prop :=
  ∀ (m3 : Mode) (p x : Int) (s : State), s.mem.read p = some x →
    (fits s.config (x + x) = true →
      ∃ t, exec (.add .position .position m3 p p p) s = .next t ∧ t.mem.read p = some (x + x)) ∧
    (fits s.config (x * x) = true →
      ∃ t, exec (.mult .position .position m3 p p p) s = .next t ∧ t.mem.read p = some (x * x)) ∧
    (∀ (m : Mode) (q y : Int), Resolves s m q y →
      (∃ t, exec (.lessThan .position m m3 p q p) s = .next t ∧ t.mem.read p = some (if x < y then 1 else 0)) ∧
      (∃ t, exec (.lessThan m .position m3 q p p) s = .next t ∧ t.mem.read p = some (if y < x then 1 else 0)) ∧
      (∃ t, exec (.equals .position m m3 p q p) s = .next t ∧ t.mem.read p = some (if x = y then 1 else 0)) ∧
      (∃ t, exec (.equals m .position m3 q p p) s = .next t ∧ t.mem.read p = some (if y = x then 1 else 0)) ∧
      (fits s.config (x + y) = true →
        (∃ t, exec (.add .position m m3 p q p) s = .next t ∧ t.mem.read p = some (x + y)) ∧
        (∃ t, exec (.add m .position m3 q p p) s = .next t ∧ t.mem.read p = some (x + y))) ∧
      (fits s.config (x * y) = true →
        (∃ t, exec (.mult .position m m3 p q p) s = .next t ∧ t.mem.read p = some (x * y)) ∧
        (∃ t, exec (.mult m .position m3 q p p) s = .next t ∧ t.mem.read p = some (x * y))))

/-- A write is seen by the next fetch, and by every later one until the word is written again: when one of the five
writing instructions has written `v` at `d`, then in any running state `u` where that word is still as the write left it,
the state right after the write among them, a step at `d` decodes `v` and faults or runs the instruction by it, and an
instruction fetched from before `d` has `v` as the parameter word that stands at `d` (20_memory.md section 6). -/
def Obligations.WriteIsSeenByTheNextFetch : Prop :=
  ∀ (i : Instr) (s : State) (d v : Int), s.run = .running → destOf i = some d → InRange s d → ResultWord s i v →
    ∃ t, exec i s = .next t ∧ t.run = .running ∧ t.ip = s.ip + 1 + i.params.length ∧
      ∀ u : State, u.run = .running → u.mem.read d = t.mem.read d →
        (u.ip = d →
          (∀ e, decodeWord v = .error e → step u = raise (causeOfDecode e) v u) ∧
          (∀ h ps, decodeWord v = .ok h → ps.length = h.op.paramCount →
            (∀ k : Nat, k < h.op.paramCount → u.mem.read (d + 1 + k) = ps[k]?) → step u = exec (h.instr ps) u)) ∧
        (∀ (j : Instr) (k : Nat), fetchInstr u = .ok j → k < j.params.length → u.ip + 1 + k = d →
          j.params[k]? = some v)

/-- The next instruction pointer of a step that is no fault: the target of a jump that fires, the pointer itself for
HALT and for a STORE that waits, and the incremented pointer otherwise (30_encoding.md R82). -/
def Obligations.NextPointerSelection : Prop :=
  ∀ (i : Instr) (s t : State), s.run = .running → exec i s = .next t → t.run ≠ .faulted →
    match i with
    | .jumpIfTrue m1 m2 p1 p2 =>
      ∃ c target, Resolves s m1 p1 c ∧ Resolves s m2 p2 target ∧ t.ip = if c ≠ 0 then target else s.ip + 3
    | .jumpIfFalse m1 m2 p1 p2 =>
      ∃ c target, Resolves s m1 p1 c ∧ Resolves s m2 p2 target ∧ t.ip = if c = 0 then target else s.ip + 3
    | .halt => t.ip = s.ip
    | .store _ _ => t.ip = if t.run = .waitInput then s.ip else s.ip + 2
    | .output _ _ => t.ip = s.ip + 2
    | .add _ _ _ _ _ _ | .mult _ _ _ _ _ _ | .lessThan _ _ _ _ _ _ | .equals _ _ _ _ _ _ => t.ip = s.ip + 4

/-! ### Frames -/

/-- ADD, MULT, LESS-THAN and EQUALS change at most the word at the destination, the instruction pointer, and, when they
fault, the run state and the fault record. -/
def Obligations.AluInstructionsFrame : Prop :=
  ∀ (i : Instr) (m1 m2 m3 : Mode) (p1 p2 p3 : Int) (s t : State),
    i ∈ [Instr.add m1 m2 m3 p1 p2 p3, Instr.mult m1 m2 m3 p1 p2 p3, Instr.lessThan m1 m2 m3 p1 p2 p3,
      Instr.equals m1 m2 m3 p1 p2 p3] →
    exec i s = .next t →
    t.config = s.config ∧ t.mem.size = s.mem.size ∧ t.inq = s.inq ∧ t.cursor = s.cursor ∧ t.outq = s.outq ∧
    (∀ d, destOf i = some d → ∀ x, x ≠ d → t.mem.read x = s.mem.read x) ∧
    ((t.run = s.run ∧ t.fault = s.fault) ∨ t = faultedWith s t.fault.code t.fault.kind (encodeWord i) t.fault.addr)

/-- STORE changes at most the word at the destination, the instruction pointer and the input cursor, or only the run
state when it waits, or only the run state and the fault record when it faults. -/
def Obligations.StoreFrame : Prop :=
  ∀ (m1 : Mode) (p1 : Int) (s t : State), exec (.store m1 p1) s = .next t →
    t.config = s.config ∧ t.mem.size = s.mem.size ∧ t.inq = s.inq ∧ t.outq = s.outq ∧
    (∀ d, destOf (.store m1 p1) = some d → ∀ x, x ≠ d → t.mem.read x = s.mem.read x) ∧
    ((t.run = s.run ∧ t.fault = s.fault ∧ t.cursor = s.cursor + 1) ∨ t = { s with run := .waitInput } ∨
      t = faultedWith s t.fault.code t.fault.kind (encodeWord (.store m1 p1)) t.fault.addr)

/-- OUTPUT and the jumps leave every word of memory and the input channel as they were; only OUTPUT touches the output
channel; the run state and the fault record change only when they fault. -/
def Obligations.OutputAndJumpsFrame : Prop :=
  ∀ (i : Instr) (m1 m2 : Mode) (p1 p2 : Int) (s t : State),
    i ∈ [Instr.output m1 p1, Instr.jumpIfTrue m1 m2 p1 p2, Instr.jumpIfFalse m1 m2 p1 p2] →
    exec i s = .next t →
    t.config = s.config ∧ t.mem.size = s.mem.size ∧ (∀ x, t.mem.read x = s.mem.read x) ∧ t.inq = s.inq ∧
    t.cursor = s.cursor ∧ (i ≠ .output m1 p1 → t.outq = s.outq) ∧
    ((t.run = s.run ∧ t.fault = s.fault) ∨ t = faultedWith s t.fault.code t.fault.kind (encodeWord i) t.fault.addr)

/-- HALT leaves every word of memory, the channels, the instruction pointer and the fault record as they were. -/
def Obligations.HaltFrame : Prop :=
  ∀ s t : State, exec .halt s = .next t →
    t.config = s.config ∧ t.mem.size = s.mem.size ∧ (∀ x, t.mem.read x = s.mem.read x) ∧ t.ip = s.ip ∧
    t.fault = s.fault ∧ t.inq = s.inq ∧ t.cursor = s.cursor ∧ t.outq = s.outq

/-! ### The whole machine -/

/-- A step that faults changes nothing but the run state and the fault record, and the record holds one of the five
codes, the instruction pointer and the instruction word, or 0 where the fetch failed; no further step is taken
(60_exceptions.md R156, R157). -/
def Obligations.FaultsArePrecise : Prop :=
  ∀ s t : State, step s = .next t → t.run = .faulted →
    t = faultedWith s t.fault.code t.fault.kind ((s.mem.read s.ip).getD 0) t.fault.addr ∧
    1 ≤ t.fault.code ∧ t.fault.code ≤ 5 ∧ t.fault.kind ≤ 3 ∧ (t.fault.code ≠ 2 → t.fault.kind = 0) ∧
    step t = .fault .alreadyFaulted

/-- The fault record is sticky: from FAULTED no step is taken, an appended value leaves the run state and the record as
they are, and only a reset clears them (60_exceptions.md R160). -/
def Obligations.FaultRecordIsSticky : Prop :=
  ∀ (s t : State) (m : HostMove), s.run = .faulted →
    step s = .fault .alreadyFaulted ∧
    (hostMove m s = .next t →
      match m with
      | .append _ => t.run = .faulted ∧ t.fault = s.fault
      | .reset _ _ => t.run = .running ∧ t.fault = FaultRecord.clear)

/-- A run ends normally only at a HALT word: a step that enters HALTED fetched 99 and changed the run state only
(30_encoding.md section 6, the run loop). -/
def Obligations.OnlyHaltEndsARun : Prop :=
  ∀ s t : State, step s = .next t → t.run = .halted →
    s.mem.read s.ip = some 99 ∧ t = { s with run := .halted }

/-- The core waits only at a STORE, in interactive mode, with its channel empty, and waiting changes the run state only
(10_state.md section 4; 60_exceptions.md section 3). A cursor past the end reads as empty: the model's choice
(assumption log 8). -/
def Obligations.OnlyStoreWaits : Prop :=
  ∀ s t : State, step s = .next t → t.run = .waitInput →
    (s.mem.read s.ip = some 3 ∨ s.mem.read s.ip = some 103) ∧ s.config.inputMode = .interactive ∧
    s.inq.length ≤ s.cursor ∧ t = { s with run := .waitInput }

/-- No step changes the parameters, the memory length or the input sequence; only OUTPUT appends to the output channel,
one value at its end; only STORE moves the input cursor, by one (00_scope.md section 3; 10_state.md sections 2 and 5). -/
def Obligations.ChannelsMoveOnlyByTheirInstructions : Prop :=
  ∀ s t : State, step s = .next t →
    t.config = s.config ∧ t.mem.size = s.mem.size ∧ t.inq = s.inq ∧
    (t.outq = s.outq ∨ ((∃ v, t.outq = s.outq ++ [v]) ∧ (s.mem.read s.ip = some 4 ∨ s.mem.read s.ip = some 104))) ∧
    (t.cursor = s.cursor ∨
      (t.cursor = s.cursor + 1 ∧ (s.mem.read s.ip = some 3 ∨ s.mem.read s.ip = some 103)))

/-- The invariant holds after the model's reset. The reset takes the empty image, `W = ∞` and batch mode: the model's
choice (assumption log 3). -/
def Obligations.ResetMeetsTheInvariant : Prop := Inv State.reset

/-- The invariant holds after every reset that is not refused. -/
def Obligations.BootMeetsTheInvariant : Prop :=
  ∀ (c : Config) (image input : List Int) (s : State), boot c image input = .next s → Inv s

/-- Every step keeps the invariant: canonical memory, every word, emitted value and pointer a Word of the configured
width, the cursor inside its sequence, and the fault record, halt and wait as the run state says. -/
def Obligations.StepKeepsTheInvariant : Prop :=
  ∀ s t : State, Inv s → step s = .next t → Inv t

/-- Input appended by the host keeps the invariant. -/
def Obligations.AppendedInputKeepsTheInvariant : Prop :=
  ∀ (s : State) (v : Int), Inv s → Inv (s.appendInput v)

/-- Under the invariant, the instruction a step fetches is well formed: its parameter words are Words. -/
def Obligations.FetchedInstructionIsWellFormed : Prop :=
  ∀ (s : State) (i : Instr), Inv s → fetchInstr s = .ok i → i.wf s.config = true

/-- When the input arrives does not matter, only its sequence: in interactive mode a value appended before a step of a
running core, or after it, leads to the same state, and if the step waits, appending undoes the wait
(70_reset_and_hazards.md section 3, determinism). -/
def Obligations.ArrivalTimeOfInputDoesNotMatter : Prop :=
  ∀ (s t : State) (v : Int), s.run = .running → s.config.inputMode = .interactive → step s = .next t →
    if t.run = .waitInput then t.appendInput v = s.appendInput v
    else step (s.appendInput v) = .next (t.appendInput v)

/-- A step of a core with a finite width that does not fault is the step of the core with `W = ∞`
(92_eei_decisions.md D1: a claim about a non-faulting run of a finite width stays true of the unbounded core). -/
def Obligations.FiniteWidthStepIsTheUnboundedStep : Prop :=
  ∀ s t : State, step s = .next t → t.run ≠ .faulted →
    step { s with config := { s.config with width := .unbounded } } =
      .next { t with config := { t.config with width := .unbounded } }

/-- Two canonical memories of one length that read alike at every address are equal. The canonical form is the model's
choice (assumption log 1). -/
def Obligations.MemoriesThatReadAlikeAreEqual : Prop :=
  ∀ m m' : Memory, m.wf → m'.wf → m.size = m'.size → (∀ a, m.read a = m'.read a) → m = m'

/-! ### Reset and the host -/

/-- Reset, asserted in any state, with an image the boot requirements admit: the array is the image, and every other
piece of state has its reset value (70_reset_and_hazards.md sections 1 and 2). That the pointer starts at 0 is the
spec's own inference (its section 1, the entry point; assumption log 9), and that a reset leaves `W` and `INPUT_MODE` as
they are is the model's choice (assumption logs 2 and 11). -/
def Obligations.ResetLoadsTheImage : Prop :=
  ∀ (before : State) (image input : List Int), before.config.wf = true →
    sizeFits before.config image.length = true → (∀ w ∈ image, fits before.config w = true) →
    ∃ s, hostMove (.reset image input) before = .next s ∧ s.config = before.config ∧
      s.mem.size = image.length ∧
      (∀ a : Nat, a < image.length → s.mem.read a = image[a]?) ∧
      (∀ a : Int, (a < 0 ∨ (image.length : Int) ≤ a) → s.mem.read a = none) ∧
      s.ip = 0 ∧ s.run = .running ∧
      s.fault = { code := 0, kind := 0, ip := 0, word := 0, addr := 0 } ∧
      s.inq = input ∧ s.cursor = 0 ∧ s.outq = []

/-- With a finite width a run starts exactly when the width is at least 16, `N ≤ 2^(W-1) - 4`, and every image word is
in the Word range (70_reset_and_hazards.md section 2; 00_scope.md section 3). -/
def Obligations.BootRequirementsOfAFiniteWidth : Prop :=
  ∀ (bits : Nat) (mode : InputMode) (image input : List Int),
    (∃ s, boot { width := .finite bits, inputMode := mode } image input = .next s) ↔
      16 ≤ bits ∧ (image.length : Int) ≤ 2 ^ (bits - 1) - 4 ∧
      ∀ w ∈ image, -(2 : Int) ^ (bits - 1) ≤ w ∧ w ≤ (2 : Int) ^ (bits - 1) - 1

/-- Appended input is added at the end of the sequence, and changes nothing else but that a waiting core runs again
(70_reset_and_hazards.md section 4). -/
def Obligations.AppendAddsInputAndWakes : Prop :=
  ∀ (s : State) (v : Int),
    s.appendInput v =
      { s with inq := s.inq ++ [v], run := if s.run = .waitInput then .running else s.run }

/-- The host reads the whole array, in address order, once the run is HALTED or FAULTED, and never before
(20_memory.md section 7; 70_reset_and_hazards.md section 4). -/
def Obligations.HostReadsMemoryOnlyAfterTheRun : Prop :=
  ∀ s : State,
    ((s.run = .halted ∨ s.run = .faulted) →
      ∃ ws, hostReadMemory s = some ws ∧ ws.length = s.mem.size ∧
        ∀ a : Nat, a < s.mem.size → ws[a]? = s.mem.read a) ∧
    ((s.run = .running ∨ s.run = .waitInput) → hostReadMemory s = none)

/-- The status outputs: the run code of each run state, and the fault record as it stands
(70_reset_and_hazards.md section 4, status outputs). -/
def Obligations.StatusShowsRunAndRecord : Prop :=
  ∀ s : State, (hostStatus s).2 = s.fault ∧
    ((hostStatus s).1 = 0 ↔ s.run = .running) ∧ ((hostStatus s).1 = 1 ↔ s.run = .waitInput) ∧
    ((hostStatus s).1 = 2 ↔ s.run = .halted) ∧ ((hostStatus s).1 = 3 ↔ s.run = .faulted)
end

