-- ==== Sys2Proof/Laws/State.lean ====
section
/-! SUPPORT. One lemma per field per update of the state, each true by unfolding the update once. -/

namespace Sys2Proof.Machine

/-! ### `setMem` -/

@[simp] theorem State.setMem_config (s : State) (m : Memory) : (s.setMem m).config = s.config := rfl
@[simp] theorem State.setMem_mem (s : State) (m : Memory) : (s.setMem m).mem = m := rfl
@[simp] theorem State.setMem_ip (s : State) (m : Memory) : (s.setMem m).ip = s.ip := rfl
@[simp] theorem State.setMem_run (s : State) (m : Memory) : (s.setMem m).run = s.run := rfl
@[simp] theorem State.setMem_fault (s : State) (m : Memory) : (s.setMem m).fault = s.fault := rfl
@[simp] theorem State.setMem_inq (s : State) (m : Memory) : (s.setMem m).inq = s.inq := rfl
@[simp] theorem State.setMem_cursor (s : State) (m : Memory) : (s.setMem m).cursor = s.cursor := rfl
@[simp] theorem State.setMem_outq (s : State) (m : Memory) : (s.setMem m).outq = s.outq := rfl

/-! ### `setIp` -/

@[simp] theorem State.setIp_config (s : State) (v : Int) : (s.setIp v).config = s.config := rfl
@[simp] theorem State.setIp_mem (s : State) (v : Int) : (s.setIp v).mem = s.mem := rfl
@[simp] theorem State.setIp_ip (s : State) (v : Int) : (s.setIp v).ip = v := rfl
@[simp] theorem State.setIp_run (s : State) (v : Int) : (s.setIp v).run = s.run := rfl
@[simp] theorem State.setIp_fault (s : State) (v : Int) : (s.setIp v).fault = s.fault := rfl
@[simp] theorem State.setIp_inq (s : State) (v : Int) : (s.setIp v).inq = s.inq := rfl
@[simp] theorem State.setIp_cursor (s : State) (v : Int) : (s.setIp v).cursor = s.cursor := rfl
@[simp] theorem State.setIp_outq (s : State) (v : Int) : (s.setIp v).outq = s.outq := rfl

/-! ### `setRun` -/

@[simp] theorem State.setRun_config (s : State) (r : Run) : (s.setRun r).config = s.config := rfl
@[simp] theorem State.setRun_mem (s : State) (r : Run) : (s.setRun r).mem = s.mem := rfl
@[simp] theorem State.setRun_ip (s : State) (r : Run) : (s.setRun r).ip = s.ip := rfl
@[simp] theorem State.setRun_run (s : State) (r : Run) : (s.setRun r).run = r := rfl
@[simp] theorem State.setRun_fault (s : State) (r : Run) : (s.setRun r).fault = s.fault := rfl
@[simp] theorem State.setRun_inq (s : State) (r : Run) : (s.setRun r).inq = s.inq := rfl
@[simp] theorem State.setRun_cursor (s : State) (r : Run) : (s.setRun r).cursor = s.cursor := rfl
@[simp] theorem State.setRun_outq (s : State) (r : Run) : (s.setRun r).outq = s.outq := rfl

/-! ### `setFault` -/

@[simp] theorem State.setFault_config (s : State) (f : FaultRecord) : (s.setFault f).config = s.config := rfl
@[simp] theorem State.setFault_mem (s : State) (f : FaultRecord) : (s.setFault f).mem = s.mem := rfl
@[simp] theorem State.setFault_ip (s : State) (f : FaultRecord) : (s.setFault f).ip = s.ip := rfl
@[simp] theorem State.setFault_run (s : State) (f : FaultRecord) : (s.setFault f).run = s.run := rfl
@[simp] theorem State.setFault_fault (s : State) (f : FaultRecord) : (s.setFault f).fault = f := rfl
@[simp] theorem State.setFault_inq (s : State) (f : FaultRecord) : (s.setFault f).inq = s.inq := rfl
@[simp] theorem State.setFault_cursor (s : State) (f : FaultRecord) : (s.setFault f).cursor = s.cursor := rfl
@[simp] theorem State.setFault_outq (s : State) (f : FaultRecord) : (s.setFault f).outq = s.outq := rfl

/-! ### `advance` -/

@[simp] theorem State.advance_config (s : State) (n : Nat) : (s.advance n).config = s.config := rfl
@[simp] theorem State.advance_mem (s : State) (n : Nat) : (s.advance n).mem = s.mem := rfl
@[simp] theorem State.advance_ip (s : State) (n : Nat) : (s.advance n).ip = s.ip + 1 + n := rfl
@[simp] theorem State.advance_run (s : State) (n : Nat) : (s.advance n).run = s.run := rfl
@[simp] theorem State.advance_fault (s : State) (n : Nat) : (s.advance n).fault = s.fault := rfl
@[simp] theorem State.advance_inq (s : State) (n : Nat) : (s.advance n).inq = s.inq := rfl
@[simp] theorem State.advance_cursor (s : State) (n : Nat) : (s.advance n).cursor = s.cursor := rfl
@[simp] theorem State.advance_outq (s : State) (n : Nat) : (s.advance n).outq = s.outq := rfl

/-! ### `inPop` -/

@[simp] theorem State.inPop_config (s : State) : (s.inPop).config = s.config := rfl
@[simp] theorem State.inPop_mem (s : State) : (s.inPop).mem = s.mem := rfl
@[simp] theorem State.inPop_ip (s : State) : (s.inPop).ip = s.ip := rfl
@[simp] theorem State.inPop_run (s : State) : (s.inPop).run = s.run := rfl
@[simp] theorem State.inPop_fault (s : State) : (s.inPop).fault = s.fault := rfl
@[simp] theorem State.inPop_inq (s : State) : (s.inPop).inq = s.inq := rfl
@[simp] theorem State.inPop_cursor (s : State) : (s.inPop).cursor = s.cursor + 1 := rfl
@[simp] theorem State.inPop_outq (s : State) : (s.inPop).outq = s.outq := rfl

/-! ### `outPush` -/

@[simp] theorem State.outPush_config (s : State) (v : Int) : (s.outPush v).config = s.config := rfl
@[simp] theorem State.outPush_mem (s : State) (v : Int) : (s.outPush v).mem = s.mem := rfl
@[simp] theorem State.outPush_ip (s : State) (v : Int) : (s.outPush v).ip = s.ip := rfl
@[simp] theorem State.outPush_run (s : State) (v : Int) : (s.outPush v).run = s.run := rfl
@[simp] theorem State.outPush_fault (s : State) (v : Int) : (s.outPush v).fault = s.fault := rfl
@[simp] theorem State.outPush_inq (s : State) (v : Int) : (s.outPush v).inq = s.inq := rfl
@[simp] theorem State.outPush_cursor (s : State) (v : Int) : (s.outPush v).cursor = s.cursor := rfl
@[simp] theorem State.outPush_outq (s : State) (v : Int) : (s.outPush v).outq = s.outq ++ [v] := rfl

/-! ### Fault entry -/

@[simp] theorem enterFault_config (c : Cause) (w : Int) (s : State) : (enterFault c w s).config = s.config := rfl
@[simp] theorem enterFault_mem (c : Cause) (w : Int) (s : State) : (enterFault c w s).mem = s.mem := rfl
@[simp] theorem enterFault_ip (c : Cause) (w : Int) (s : State) : (enterFault c w s).ip = s.ip := rfl
@[simp] theorem enterFault_run (c : Cause) (w : Int) (s : State) : (enterFault c w s).run = .faulted := rfl
@[simp] theorem enterFault_fault (c : Cause) (w : Int) (s : State) : (enterFault c w s).fault = c.record s.ip w := rfl
@[simp] theorem enterFault_inq (c : Cause) (w : Int) (s : State) : (enterFault c w s).inq = s.inq := rfl
@[simp] theorem enterFault_cursor (c : Cause) (w : Int) (s : State) : (enterFault c w s).cursor = s.cursor := rfl
@[simp] theorem enterFault_outq (c : Cause) (w : Int) (s : State) : (enterFault c w s).outq = s.outq := rfl

/-- Fault entry in the terms of the statements (60_exceptions.md R156). -/
theorem enterFault_eq_faultedWith (c : Cause) (w : Int) (s : State) :
    enterFault c w s = faultedWith s c.code c.kind w c.addr := rfl

/-! ### Appended input -/

@[simp] theorem State.appendInput_config (s : State) (v : Int) : (s.appendInput v).config = s.config := rfl
@[simp] theorem State.appendInput_mem (s : State) (v : Int) : (s.appendInput v).mem = s.mem := rfl
@[simp] theorem State.appendInput_ip (s : State) (v : Int) : (s.appendInput v).ip = s.ip := rfl
@[simp] theorem State.appendInput_fault (s : State) (v : Int) : (s.appendInput v).fault = s.fault := rfl
@[simp] theorem State.appendInput_inq (s : State) (v : Int) : (s.appendInput v).inq = s.inq ++ [v] := rfl
@[simp] theorem State.appendInput_cursor (s : State) (v : Int) : (s.appendInput v).cursor = s.cursor := rfl
@[simp] theorem State.appendInput_outq (s : State) (v : Int) : (s.appendInput v).outq = s.outq := rfl

theorem State.appendInput_run_of_running {s : State} (v : Int) (h : s.run = .running) :
    (s.appendInput v).run = .running := by
  simp [State.appendInput, h]

/-- Appended input never leaves a core waiting (60_exceptions.md R162). -/
theorem State.appendInput_run_ne_waitInput (s : State) (v : Int) : (s.appendInput v).run ≠ .waitInput := by
  cases h : s.run <;> simp [State.appendInput, h]

/-! ### The input channel's view of the updates -/

@[simp] theorem State.setMem_inPeek (s : State) (m : Memory) : (s.setMem m).inPeek = s.inPeek := rfl
@[simp] theorem State.setIp_inPeek (s : State) (v : Int) : (s.setIp v).inPeek = s.inPeek := rfl
@[simp] theorem State.setRun_inPeek (s : State) (r : Run) : (s.setRun r).inPeek = s.inPeek := rfl
@[simp] theorem State.outPush_inPeek (s : State) (v : Int) : (s.outPush v).inPeek = s.inPeek := rfl

/-- The channel is empty exactly when the cursor is not before the end of the sequence (41_io.md R112). -/
theorem State.inPeek_eq_none_iff (s : State) : s.inPeek = none ↔ s.inq.length ≤ s.cursor := by
  simp [State.inPeek]

end Sys2Proof.Machine
end

