-- ==== Sys2Proof/Laws/Memory.lean ====
section
/-! SUPPORT. The memory array: what a write changes, what an image reads as, and that every operation keeps the
canonical form. -/

namespace Sys2Proof.Machine

/-! ### Cells -/

theorem mem_insertCell {a : Nat} {v : Int} {cs : List (Nat × Int)} {c : Nat × Int} :
    c ∈ insertCell a v cs ↔ c = (a, v) ∨ c ∈ cs := by
  induction cs with
  | nil => simp [insertCell]
  | cons d ds ih =>
    unfold insertCell
    split <;> simp only [List.mem_cons, ih]
    tauto

theorem cellWord_insertCell_same {a : Nat} {v : Int} {cs : List (Nat × Int)} (h : ∀ c ∈ cs, c.1 ≠ a) :
    cellWord (insertCell a v cs) a = v := by
  induction cs with
  | nil => simp [insertCell, cellWord]
  | cons d ds ih =>
    have hd : d.1 ≠ a := h d (by simp)
    unfold insertCell
    split
    · simp [cellWord]
    · simp [cellWord, hd, ih fun c hc => h c (by simp [hc])]

theorem cellWord_insertCell_other {a b : Nat} {v : Int} (cs : List (Nat × Int)) (hab : b ≠ a) :
    cellWord (insertCell a v cs) b = cellWord cs b := by
  induction cs with
  | nil => simp [insertCell, cellWord, hab.symm]
  | cons d ds ih =>
    unfold insertCell
    split
    · simp [cellWord, hab.symm]
    · simp [cellWord, ih]

theorem cellWord_of_absent {a : Nat} {cs : List (Nat × Int)} (h : ∀ c ∈ cs, c.1 ≠ a) :
    cellWord cs a = unlistedWord := by
  induction cs with
  | nil => rfl
  | cons d ds ih => simp [cellWord, h d (by simp), ih fun c hc => h c (by simp [hc])]

theorem cellWord_filter_other {a b : Nat} (cs : List (Nat × Int)) (hab : b ≠ a) :
    cellWord (cs.filter fun c => decide (c.1 ≠ a)) b = cellWord cs b := by
  induction cs with
  | nil => rfl
  | cons d ds ih =>
    rcases eq_or_ne d.1 a with h | h
    · have hdb : d.1 ≠ b := fun e => hab (e ▸ h)
      rw [List.filter_cons_of_neg (by simp [h]), ih]
      simp [cellWord, hdb]
    · rw [List.filter_cons_of_pos (by simp [h])]
      simp only [cellWord, ih]

/-- Read after write, at the address written. -/
theorem cellWord_setCell_same (a : Nat) (v : Int) (cs : List (Nat × Int)) : cellWord (setCell a v cs) a = v := by
  have absent : ∀ c ∈ cs.filter (fun c => decide (c.1 ≠ a)), c.1 ≠ a := by simp
  unfold setCell
  split
  · next hv => rw [cellWord_of_absent absent, hv]
  · exact cellWord_insertCell_same absent

/-- A write leaves every other address alone. -/
theorem cellWord_setCell_other {a b : Nat} (v : Int) (cs : List (Nat × Int)) (hab : b ≠ a) :
    cellWord (setCell a v cs) b = cellWord cs b := by
  unfold setCell
  split
  · exact cellWord_filter_other cs hab
  · rw [cellWord_insertCell_other _ hab, cellWord_filter_other cs hab]

theorem pairwise_insertCell {a : Nat} {v : Int} {cs : List (Nat × Int)}
    (hs : cs.Pairwise fun c d => c.1 < d.1) (ha : ∀ c ∈ cs, c.1 ≠ a) :
    (insertCell a v cs).Pairwise fun c d => c.1 < d.1 := by
  induction cs with
  | nil => simp [insertCell]
  | cons d ds ih =>
    obtain ⟨hd, hds⟩ := List.pairwise_cons.mp hs
    have hda : d.1 ≠ a := ha d (by simp)
    unfold insertCell
    split
    · next hlt =>
      refine List.pairwise_cons.mpr ⟨fun c hc => ?_, hs⟩
      rcases List.mem_cons.mp hc with rfl | hc
      · exact hlt
      · exact lt_trans hlt (hd c hc)
    · next hlt =>
      refine List.pairwise_cons.mpr ⟨fun c hc => ?_, ih hds fun c hc => ha c (by simp [hc])⟩
      rcases mem_insertCell.mp hc with rfl | hc
      · exact lt_of_le_of_ne (not_lt.mp hlt) hda
      · exact hd c hc

/-! ### The canonical form -/

/-- A write inside the array keeps the canonical form. -/
theorem wf_setCell {m : Memory} {a : Nat} (v : Int) (hm : m.wf) (ha : a < m.size) :
    ({ m with cells := setCell a v m.cells } : Memory).wf := by
  obtain ⟨hs, hc⟩ := hm
  have hs' := hs.filter fun c => decide (c.1 ≠ a)
  unfold Memory.wf setCell
  dsimp only
  split
  · exact ⟨hs', fun c h => hc c (List.mem_filter.mp h).1⟩
  · next hv =>
    refine ⟨pairwise_insertCell hs' (by simp), fun c h => ?_⟩
    rcases mem_insertCell.mp h with rfl | h
    · exact ⟨ha, hv⟩
    · exact hc c (List.mem_filter.mp h).1

theorem wf_empty : Memory.empty.wf := by decide

theorem wf_growTo {m : Memory} (n : Nat) (hm : m.wf) : (m.growTo n).wf :=
  ⟨hm.1, fun c h => ⟨lt_of_lt_of_le (hm.2 c h).1 (le_max_left _ _), (hm.2 c h).2⟩⟩

theorem wf_load {m : Memory} {a : Nat} {ws : List Int} (hm : m.wf) (ha : a + ws.length ≤ m.size) :
    (m.load a ws).wf := by
  induction ws generalizing m a with
  | nil => exact hm
  | cons v vs ih =>
    simp only [List.length_cons] at ha
    exact ih (wf_setCell v hm (by omega)) (by dsimp only; omega)

theorem imageCells_bounds {a : Nat} {ws : List Int} :
    ∀ c ∈ imageCells a ws, a ≤ c.1 ∧ c.1 < a + ws.length ∧ c.2 ≠ unlistedWord := by
  induction ws generalizing a with
  | nil => simp [imageCells]
  | cons v vs ih =>
    intro c hc
    unfold imageCells at hc
    split at hc
    · have := ih c hc
      simp only [List.length_cons]; omega
    · next hv =>
      rcases List.mem_cons.mp hc with rfl | hc
      · simp [hv]
      · have := ih c hc
        simp only [List.length_cons]; omega

theorem pairwise_imageCells (a : Nat) (ws : List Int) : (imageCells a ws).Pairwise fun c d => c.1 < d.1 := by
  induction ws generalizing a with
  | nil => simp [imageCells]
  | cons v vs ih =>
    unfold imageCells
    split
    · exact ih _
    · refine List.pairwise_cons.mpr ⟨fun c hc => ?_, ih _⟩
      have := (imageCells_bounds c hc).1
      dsimp only; omega

/-- A loaded image is in canonical form. -/
theorem wf_ofImage (image : List Int) : (Memory.ofImage image).wf := by
  refine ⟨pairwise_imageCells 0 image, fun c hc => ?_⟩
  have := imageCells_bounds c hc
  exact ⟨by have := this.2.1; simpa [Memory.ofImage] using this, this.2.2⟩

theorem cellWord_imageCells (a : Nat) (ws : List Int) (k : Nat) (hk : k < ws.length) :
    cellWord (imageCells a ws) (a + k) = ws[k] := by
  induction ws generalizing a k with
  | nil => simp at hk
  | cons v vs ih =>
    cases k with
    | zero =>
      unfold imageCells
      split
      · next hv =>
        rw [cellWord_of_absent fun c hc => ?_]
        · simp [hv]
        · have := (imageCells_bounds c hc).1
          omega
      · simp [cellWord]
    | succ k =>
      have := ih (a + 1) k (by simpa using hk)
      unfold imageCells
      split
      · simpa [Nat.add_assoc, Nat.add_comm 1 k] using this
      · simpa [cellWord, Nat.add_assoc, Nat.add_comm 1 k] using this

/-! ### Reads and writes -/

theorem Memory.inBounds_iff (m : Memory) (a : Int) : m.inBounds a = true ↔ 0 ≤ a ∧ a < (m.size : Int) := by
  simp [Memory.inBounds]

theorem inBounds_iff_inRange (s : State) (a : Int) : s.mem.inBounds a = true ↔ InRange s a :=
  Memory.inBounds_iff _ _

/-- What a read can answer (20_memory.md R41). -/
theorem Memory.read_eq_some_iff {m : Memory} {a v : Int} :
    m.read a = some v ↔ (0 ≤ a ∧ a < (m.size : Int)) ∧ cellWord m.cells a.toNat = v := by
  rw [← Memory.inBounds_iff]
  unfold Memory.read
  split <;> simp_all

theorem Memory.read_eq_none_iff {m : Memory} {a : Int} : m.read a = none ↔ ¬(0 ≤ a ∧ a < (m.size : Int)) := by
  rw [← Memory.inBounds_iff]
  unfold Memory.read
  split <;> simp_all

/-- A read answers a word exactly in range. -/
theorem exists_read_iff_inRange (s : State) (a : Int) : (∃ v, s.mem.read a = some v) ↔ InRange s a := by
  cases h : s.mem.read a with
  | none => simpa [InRange] using Memory.read_eq_none_iff.mp h
  | some v => simpa [InRange] using (Memory.read_eq_some_iff.mp h).1

/-- Everything a write can do (20_memory.md R42): nothing out of bounds; in bounds the length stays, the address reads
the new word, every other address reads as before, and the canonical form is kept. -/
theorem Memory.write_cases (m : Memory) (a v : Int) :
    (m.write a v = none ∧ ¬(0 ≤ a ∧ a < (m.size : Int))) ∨
    ∃ m', m.write a v = some m' ∧ (0 ≤ a ∧ a < (m.size : Int)) ∧ m'.size = m.size ∧ m'.read a = some v ∧
      (∀ x, x ≠ a → m'.read x = m.read x) ∧ (m.wf → m'.wf) := by
  by_cases h : m.inBounds a = true
  · have hb := (Memory.inBounds_iff _ _).mp h
    refine .inr ⟨{ m with cells := setCell a.toNat v m.cells }, by simp [Memory.write, h], hb, rfl, ?_, ?_, ?_⟩
    · exact Memory.read_eq_some_iff.mpr ⟨hb, cellWord_setCell_same _ _ _⟩
    · intro x hx
      unfold Memory.read Memory.inBounds
      dsimp only
      split
      · next hxb =>
        have : x.toNat ≠ a.toNat := by
          simp only [Bool.and_eq_true, decide_eq_true_eq] at hxb
          omega
        rw [cellWord_setCell_other v _ this]
      · rfl
    · exact fun hm => wf_setCell v hm (by omega)
  · exact .inl ⟨by simp [Memory.write, h], fun hb => h ((Memory.inBounds_iff _ _).mpr hb)⟩

/-- The same of a write that succeeds. -/
theorem Memory.write_eq_some {m m' : Memory} {a v : Int} (h : m.write a v = some m') :
    (0 ≤ a ∧ a < (m.size : Int)) ∧ m'.size = m.size ∧ m'.read a = some v ∧
      (∀ x, x ≠ a → m'.read x = m.read x) ∧ (m.wf → m'.wf) := by
  rcases Memory.write_cases m a v with ⟨h', -⟩ | ⟨_, h', r⟩
  · simp [h] at h'
  · obtain rfl : m' = _ := by simpa [h] using h'
    exact r

theorem Memory.exists_write (m : Memory) {a : Int} (v : Int) (h : 0 ≤ a ∧ a < (m.size : Int)) :
    ∃ m', m.write a v = some m' := by
  rcases Memory.write_cases m a v with ⟨-, h'⟩ | ⟨m', h', -⟩
  · exact absurd h h'
  · exact ⟨m', h'⟩

/-- An image reads back word by word (70_reset_and_hazards.md R180). -/
theorem Memory.read_ofImage (image : List Int) (a : Nat) (h : a < image.length) :
    (Memory.ofImage image).read a = some image[a] := by
  refine Memory.read_eq_some_iff.mpr ⟨by simp [Memory.ofImage, h], ?_⟩
  simpa [Memory.ofImage] using cellWord_imageCells 0 image a h

end Sys2Proof.Machine
end

