-- ==== Sys2Proof/Laws/Ops.lean ====
section
/-! SUPPORT. The shared operations of the meanings: one lemma each that says everything the operation can do. -/

namespace Sys2Proof.Machine

/-! ### Operands -/

/-- A destination's mode is ignored (30_encoding.md R70). -/
@[simp] theorem destination_eq (m : Mode) (raw : Int) : destination m raw = raw := by
  unfold destination
  rfl

/-- The address translator answers `v` exactly when `v` is the operand (30_encoding.md R71). -/
theorem operand_eq_ok_iff {s : State} {m : Mode} {raw v : Int} : operand m raw s.mem = .ok v ↔ Resolves s m raw v := by
  cases m with
  | immediate => simp [operand, Resolves, eq_comm]
  | position => cases h : s.mem.read raw <;> simp [operand, Resolves, h]

/-- The only fault of the address translator is OutOfBoundsAccess(OPERAND) at the parameter word. -/
theorem operand_cases (s : State) (m : Mode) (raw : Int) :
    (∃ v, operand m raw s.mem = .ok v ∧ Resolves s m raw v) ∨
    (operand m raw s.mem = .error (.outOfBounds .operand raw) ∧ m = .position ∧ ¬ InRange s raw) := by
  cases h : operand m raw s.mem with
  | ok v => exact .inl ⟨v, rfl, operand_eq_ok_iff.mp h⟩
  | error c =>
    cases m with
    | immediate => simp [operand] at h
    | position =>
      cases hr : s.mem.read raw with
      | some v => simp [operand, hr] at h
      | none => exact .inr ⟨by simpa [operand, hr, eq_comm] using h, rfl, Memory.read_eq_none_iff.mp hr⟩

theorem operand_outOfRange {s : State} {raw : Int} (h : ¬ InRange s raw) :
    operand .position raw s.mem = .error (.outOfBounds .operand raw) := by
  simp [operand, Memory.read_eq_none_iff.mpr h]

/-- A source that is immediate, or whose address is in range, resolves. -/
theorem exists_resolves {s : State} {m : Mode} {raw : Int} (h : m = .immediate ∨ InRange s raw) :
    ∃ v, Resolves s m raw v := by
  rcases operand_cases s m raw with ⟨v, -, hv⟩ | ⟨-, rfl, hr⟩
  · exact ⟨v, hv⟩
  · simp [hr] at h

/-- Two sources resolve in order: both, or the first that fails is the fault (20_memory.md R48). -/
theorem operands2_cases (s : State) (m1 m2 : Mode) (p1 p2 : Int) :
    (∃ a b, operands2 m1 m2 p1 p2 s.mem = .ok (a, b) ∧ Resolves s m1 p1 a ∧ Resolves s m2 p2 b) ∨
    (operands2 m1 m2 p1 p2 s.mem = .error (.outOfBounds .operand p1) ∧ m1 = .position ∧ ¬ InRange s p1) ∨
    (operands2 m1 m2 p1 p2 s.mem = .error (.outOfBounds .operand p2) ∧ m2 = .position ∧ ¬ InRange s p2 ∧
      ∃ a, Resolves s m1 p1 a) := by
  rcases operand_cases s m1 p1 with ⟨a, ha, ra⟩ | ⟨ha, hm, hr⟩
  · rcases operand_cases s m2 p2 with ⟨b, hb, rb⟩ | ⟨hb, hm, hr⟩
    · exact .inl ⟨a, b, by simp [operands2, ha, hb], ra, rb⟩
    · exact .inr (.inr ⟨by simp [operands2, ha, hb], hm, hr, a, ra⟩)
  · exact .inr (.inl ⟨by simp [operands2, ha], hm, hr⟩)

theorem operands2_of_resolves {s : State} {m1 m2 : Mode} {p1 p2 a b : Int} (h1 : Resolves s m1 p1 a)
    (h2 : Resolves s m2 p2 b) : operands2 m1 m2 p1 p2 s.mem = .ok (a, b) := by
  simp [operands2, operand_eq_ok_iff.mpr h1, operand_eq_ok_iff.mpr h2]

/-! ### Commits -/

/-- The commit at an address in range: a next state with that one word written and the pointer advanced. -/
theorem commitWrite_inRange {s : State} (word : Int) {addr : Int} (v : Int) (n : Nat) (h : InRange s addr) :
    ∃ m, s.mem.write addr v = some m ∧ commitWrite word addr v n s = .next ((s.setMem m).advance n) := by
  obtain ⟨m, hm⟩ := s.mem.exists_write v h
  exact ⟨m, hm, by simp [commitWrite, hm]⟩

/-- Everything the commit can do. -/
theorem commitWrite_cases (s : State) (word addr v : Int) (n : Nat) :
    (∃ m, s.mem.write addr v = some m ∧ commitWrite word addr v n s = .next ((s.setMem m).advance n)) ∨
    (¬ InRange s addr ∧ commitWrite word addr v n s = .next (enterFault (.outOfBounds .dest addr) word s)) := by
  rcases s.mem.write_cases addr v with ⟨h, hr⟩ | ⟨m, hm, -⟩
  · exact .inr ⟨hr, by simp [commitWrite, h, raise]⟩
  · exact .inl ⟨m, hm, by simp [commitWrite, hm]⟩

/-- The advance and the write as a statement says them. -/
theorem writesOnly_of_write {s t : State} {a v : Int} {m : Memory} (h : s.mem.write a v = some m) (ht : t.mem = m) :
    WritesOnly s t a v := by
  obtain ⟨-, hsize, hsame, hother, -⟩ := Memory.write_eq_some h
  exact ⟨by rw [ht, hsize], by rw [ht, hsame], fun x hx => by rw [ht, hother x hx]⟩

/-! ### The shapes of the meanings -/

/-- With the sources resolved and the destination in range, an instruction's rule runs on its operands. -/
theorem withOperands_of_resolves {s : State} {m1 m2 : Mode} {p1 p2 p3 a b : Int} (word : Int) (m3 : Mode)
    (act : Int → Int → Int → Host.Outcome State Fault Refusal)
    (h1 : Resolves s m1 p1 a) (h2 : Resolves s m2 p2 b) (h3 : InRange s p3) :
    withOperands word m1 m2 m3 p1 p2 p3 s act = act a b p3 := by
  simp [withOperands, operands2_of_resolves h1 h2, destination, (inBounds_iff_inRange s p3).mpr h3]

/-- Everything phases 4 and 5 can do. -/
theorem withOperands_cases (s : State) (word : Int) (m1 m2 m3 : Mode) (p1 p2 p3 : Int)
    (act : Int → Int → Int → Host.Outcome State Fault Refusal) :
    (∃ a b, Resolves s m1 p1 a ∧ Resolves s m2 p2 b ∧ InRange s p3 ∧
      withOperands word m1 m2 m3 p1 p2 p3 s act = act a b p3) ∨
    (∃ k a, withOperands word m1 m2 m3 p1 p2 p3 s act = .next (enterFault (.outOfBounds k a) word s)) := by
  rcases operands2_cases s m1 m2 p1 p2 with ⟨a, b, h, ha, hb⟩ | ⟨h, -⟩ | ⟨h, -⟩
  · by_cases h3 : InRange s p3
    · exact .inl ⟨a, b, ha, hb, h3, withOperands_of_resolves word m3 act ha hb h3⟩
    · refine .inr ⟨.dest, p3, ?_⟩
      have : ¬ s.mem.inBounds p3 = true := fun hb => h3 ((inBounds_iff_inRange s p3).mp hb)
      simp [withOperands, h, destination, this, raise]
  · exact .inr ⟨.operand, p1, by simp [withOperands, h, raise]⟩
  · exact .inr ⟨.operand, p2, by simp [withOperands, h, raise]⟩

/-- Everything a conditional jump can do (42_jumps.md R120 to R122). -/
theorem jumpWhen_cases (cond : Int → Bool) (s : State) (word : Int) (m1 m2 : Mode) (p1 p2 : Int) :
    (∃ c target, Resolves s m1 p1 c ∧ Resolves s m2 p2 target ∧
      jumpWhen cond word m1 m2 p1 p2 s = .next (if cond c then s.setIp target else s.advance 2)) ∨
    (∃ a, jumpWhen cond word m1 m2 p1 p2 s = .next (enterFault (.outOfBounds .operand a) word s)) := by
  rcases operands2_cases s m1 m2 p1 p2 with ⟨a, b, h, ha, hb⟩ | ⟨h, -⟩ | ⟨h, -⟩
  · exact .inl ⟨a, b, ha, hb, by simp [jumpWhen, h]⟩
  · exact .inr ⟨p1, by simp [jumpWhen, h, raise]⟩
  · exact .inr ⟨p2, by simp [jumpWhen, h, raise]⟩

/-! ### Range tests -/

theorem fits_of_unbounded {c : Config} (h : c.width = .unbounded) (v : Int) : fits c v = true := by
  simp [fits, h]

/-- With an admitted width every value of 16 signed bits is a Word; 0, 1 and the legal instruction words are such
values. -/
theorem fits_of_small {c : Config} (hc : c.wf = true) {v : Int} (hl : -32768 ≤ v) (hu : v ≤ 32767) :
    fits c v = true := by
  cases hw : c.width with
  | unbounded => exact fits_of_unbounded hw v
  | finite bits =>
    simp only [Config.wf, hw, decide_eq_true_eq] at hc
    simp only [fits, hw, decide_eq_true_eq]
    have : 2 ^ 15 ≤ 2 ^ (bits - 1) := Nat.pow_le_pow_right (by decide) (by omega)
    omega

/-- A comparison's result is always a Word (43_compare.md). -/
theorem fits_boolWord {c : Config} (hc : c.wf = true) (b : Bool) : fits c (boolWord b) = true := by
  cases b <;> exact fits_of_small hc (by decide) (by decide)

end Sys2Proof.Machine
end

