-- ==== Sys2Proof/Laws/Exec.lean ====
section
/-! SUPPORT. What an instruction and a step can do, said once: every invariant of the machine is derived from these. -/

namespace Sys2Proof.Machine

/-- A commit through the ALU's range check: the write, or WordOverflow, or (outside a step) the destination fault. -/
theorem commitResult_cases (s : State) (word addr r : Int) (n : Nat) :
    (fits s.config r = true ∧ ∃ m, s.mem.write addr r = some m ∧
      commitResult word addr r n s = .next ((s.setMem m).advance n)) ∨
    (∃ c, commitResult word addr r n s = .next (enterFault c word s)) := by
  unfold commitResult
  split
  · next hf =>
    rcases commitWrite_cases s word addr r n with ⟨m, hm, h⟩ | ⟨-, h⟩
    · exact .inl ⟨hf, m, hm, h⟩
    · exact .inr ⟨_, h⟩
  · exact .inr ⟨_, rfl⟩

/-- ADD, MULT, LESS-THAN or EQUALS completed in `t`: a result `r` of the operands `a` and `b` went to the destination
`d`, and the pointer advanced by 4. -/
def AluEffect (s : State) (i : Instr) (t : State) : Prop :=
  ∃ d r m, destOf i = some d ∧ s.mem.write d r = some m ∧ t = (s.setMem m).advance 3 ∧
    (fits s.config r = true ∨ ∃ b, r = boolWord b)

/-- Everything an ALU instruction can do, when its rule `act` can only commit a result or fault. -/
theorem alu_cases {s t : State} {i : Instr} {m1 m2 m3 : Mode} {p1 p2 p3 : Int}
    {act : Int → Int → Int → Host.Outcome State Fault Refusal} (hd : destOf i = some p3)
    (hact : ∀ a b, (∃ r m, s.mem.write p3 r = some m ∧ act a b p3 = .next ((s.setMem m).advance 3) ∧
        (fits s.config r = true ∨ ∃ b, r = boolWord b)) ∨
      ∃ c, act a b p3 = .next (enterFault c (encodeWord i) s))
    (h : withOperands (encodeWord i) m1 m2 m3 p1 p2 p3 s act = .next t) :
    (∃ c, t = enterFault c (encodeWord i) s) ∨ AluEffect s i t := by
  rcases withOperands_cases s (encodeWord i) m1 m2 m3 p1 p2 p3 act with ⟨a, b, -, -, -, e⟩ | ⟨k, a, e⟩
  · rw [e] at h
    rcases hact a b with ⟨r, m, hm, e, hr⟩ | ⟨c, e⟩ <;> rw [e] at h
    · exact .inr ⟨p3, r, m, hd, hm, (Host.Outcome.next.inj h).symm, hr⟩
    · exact .inl ⟨c, (Host.Outcome.next.inj h).symm⟩
  · rw [e] at h
    exact .inl ⟨_, (Host.Outcome.next.inj h).symm⟩

/-- The rule of ADD and MULT can only commit a result that fits, or fault. -/
theorem arith_act (s : State) (word dest r : Int) :
    (∃ r' m, s.mem.write dest r' = some m ∧ commitResult word dest r 3 s = .next ((s.setMem m).advance 3) ∧
      (fits s.config r' = true ∨ ∃ b, r' = boolWord b)) ∨
    ∃ c, commitResult word dest r 3 s = .next (enterFault c word s) := by
  rcases commitResult_cases s word dest r 3 with ⟨hf, m, hm, h⟩ | h
  · exact .inl ⟨r, m, hm, h, .inl hf⟩
  · exact .inr h

/-- The rule of LESS-THAN and EQUALS can only commit 0 or 1, or fault. -/
theorem compare_act (s : State) (word dest : Int) (b : Bool) :
    (∃ r' m, s.mem.write dest r' = some m ∧
      commitWrite word dest (boolWord b) 3 s = .next ((s.setMem m).advance 3) ∧
      (fits s.config r' = true ∨ ∃ b, r' = boolWord b)) ∨
    ∃ c, commitWrite word dest (boolWord b) 3 s = .next (enterFault c word s) := by
  rcases commitWrite_cases s word dest (boolWord b) 3 with ⟨m, hm, h⟩ | ⟨-, h⟩
  · exact .inl ⟨_, m, hm, h, .inr ⟨b, rfl⟩⟩
  · exact .inr ⟨_, h⟩

/-- Everything STORE can do (41_io.md R110). -/
theorem execStore_cases (m1 : Mode) (p1 : Int) (s : State) :
    (∃ c, execStore m1 p1 s = .next (enterFault c (encodeWord (.store m1 p1)) s)) ∨
    (∃ v m, s.inPeek = some v ∧ fits s.config v = true ∧ s.mem.write p1 v = some m ∧
      execStore m1 p1 s = .next ((s.inPop.setMem m).advance 1)) ∨
    (s.inPeek = none ∧ s.config.inputMode = .interactive ∧ InRange s p1 ∧
      execStore m1 p1 s = .next (s.setRun .waitInput)) := by
  by_cases hd : s.mem.inBounds p1 = true
  · have hr := (inBounds_iff_inRange s p1).mp hd
    cases hp : s.inPeek with
    | none =>
      cases hm : s.config.inputMode with
      | batch => exact .inl ⟨.inputExhausted, by simp [execStore, destination, hd, hp, hm, raise]⟩
      | interactive => exact .inr (.inr ⟨rfl, rfl, hr, by simp [execStore, destination, hd, hp, hm]⟩)
    | some v =>
      by_cases hf : fits s.config v = true
      · obtain ⟨m, hm, h⟩ := commitWrite_inRange (s := s.inPop) (encodeWord (.store m1 p1)) v 1 hr
        exact .inr (.inl ⟨v, m, rfl, hf, hm, by simp [execStore, destination, hd, hp, hf, h]⟩)
      · exact .inl ⟨.wordOverflow v, by simp [execStore, destination, hd, hp, hf, raise]⟩
  · exact .inl ⟨.outOfBounds .dest p1, by simp [execStore, destination, hd, raise]⟩

/-- Everything OUTPUT can do (41_io.md R111). -/
theorem execOutput_cases (m1 : Mode) (p1 : Int) (s : State) :
    (∃ c, execOutput m1 p1 s = .next (enterFault c (encodeWord (.output m1 p1)) s)) ∨
    (∃ v, Resolves s m1 p1 v ∧ execOutput m1 p1 s = .next ((s.outPush v).advance 1)) := by
  rcases operand_cases s m1 p1 with ⟨v, h, hv⟩ | ⟨h, -⟩
  · exact .inr ⟨v, hv, by simp [execOutput, h]⟩
  · exact .inl ⟨.outOfBounds .operand p1, by simp only [execOutput, h, raise]⟩

/-- Everything an instruction can do when it answers a next state: it faults and changes nothing but the run state and
the record; or it is an ALU instruction, a STORE that takes a value or waits, an OUTPUT, a jump, or HALT, with that
instruction's effect and no other. -/
theorem exec_cases {i : Instr} {s t : State} (h : exec i s = .next t) :
    (∃ c, t = enterFault c (encodeWord i) s) ∨
    (AluEffect s i t ∧ i.params.length = 3) ∨
    (∃ m1 p1 v m, i = .store m1 p1 ∧ s.inPeek = some v ∧ fits s.config v = true ∧ s.mem.write p1 v = some m ∧
      t = (s.inPop.setMem m).advance 1) ∨
    (∃ m1 p1, i = .store m1 p1 ∧ s.inPeek = none ∧ s.config.inputMode = .interactive ∧ t = s.setRun .waitInput) ∨
    (∃ m1 p1 v, i = .output m1 p1 ∧ Resolves s m1 p1 v ∧ t = (s.outPush v).advance 1) ∨
    (∃ m1 m2 p1 p2 c v, i = .jumpIfTrue m1 m2 p1 p2 ∧ Resolves s m1 p1 c ∧ Resolves s m2 p2 v ∧
      t = if nonZeroTest c then s.setIp v else s.advance 2) ∨
    (∃ m1 m2 p1 p2 c v, i = .jumpIfFalse m1 m2 p1 p2 ∧ Resolves s m1 p1 c ∧ Resolves s m2 p2 v ∧
      t = if zeroTest c then s.setIp v else s.advance 2) ∨
    (i = .halt ∧ t = s.setRun .halted) := by
  have alu {j : Instr} (hl : j.params.length = 3) (hj : (∃ c, t = enterFault c (encodeWord j) s) ∨ AluEffect s j t) :
      (∃ c, t = enterFault c (encodeWord j) s) ∨ (AluEffect s j t ∧ j.params.length = 3) :=
    hj.imp_right fun e => ⟨e, hl⟩
  cases i with
  | add m1 m2 m3 p1 p2 p3 =>
    simp only [exec, execAdd] at h
    exact (alu rfl (alu_cases (p3 := p3) rfl (fun a b => arith_act s _ p3 (a + b)) h)).imp_right .inl
  | mult m1 m2 m3 p1 p2 p3 =>
    simp only [exec, execMult] at h
    exact (alu rfl (alu_cases (p3 := p3) rfl (fun a b => arith_act s _ p3 (a * b)) h)).imp_right .inl
  | lessThan m1 m2 m3 p1 p2 p3 =>
    simp only [exec, execLessThan] at h
    exact (alu rfl (alu_cases (p3 := p3) rfl (fun a b => compare_act s _ p3 (lessThanTest a b)) h)).imp_right .inl
  | equals m1 m2 m3 p1 p2 p3 =>
    simp only [exec, execEquals] at h
    exact (alu rfl (alu_cases (p3 := p3) rfl (fun a b => compare_act s _ p3 (equalsTest a b)) h)).imp_right .inl
  | store m1 p1 =>
    rcases execStore_cases m1 p1 s with ⟨c, e⟩ | ⟨v, m, hp, hf, hm, e⟩ | ⟨hp, hi, -, e⟩ <;>
      obtain rfl := Host.Outcome.next.inj (e.symm.trans h)
    · exact .inl ⟨c, rfl⟩
    · exact .inr (.inr (.inl ⟨m1, p1, v, m, rfl, hp, hf, hm, rfl⟩))
    · exact .inr (.inr (.inr (.inl ⟨m1, p1, rfl, hp, hi, rfl⟩)))
  | output m1 p1 =>
    rcases execOutput_cases m1 p1 s with ⟨c, e⟩ | ⟨v, hv, e⟩ <;> obtain rfl := Host.Outcome.next.inj (e.symm.trans h)
    · exact .inl ⟨c, rfl⟩
    · exact .inr (.inr (.inr (.inr (.inl ⟨m1, p1, v, rfl, hv, rfl⟩))))
  | jumpIfTrue m1 m2 p1 p2 =>
    rcases jumpWhen_cases nonZeroTest s (encodeWord (.jumpIfTrue m1 m2 p1 p2)) m1 m2 p1 p2 with
      ⟨c, v, hc, hv, e⟩ | ⟨a, e⟩ <;> obtain rfl := Host.Outcome.next.inj (e.symm.trans h)
    · exact .inr (.inr (.inr (.inr (.inr (.inl ⟨m1, m2, p1, p2, c, v, rfl, hc, hv, rfl⟩)))))
    · exact .inl ⟨_, rfl⟩
  | jumpIfFalse m1 m2 p1 p2 =>
    rcases jumpWhen_cases zeroTest s (encodeWord (.jumpIfFalse m1 m2 p1 p2)) m1 m2 p1 p2 with
      ⟨c, v, hc, hv, e⟩ | ⟨a, e⟩ <;> obtain rfl := Host.Outcome.next.inj (e.symm.trans h)
    · exact .inr (.inr (.inr (.inr (.inr (.inr (.inl ⟨m1, m2, p1, p2, c, v, rfl, hc, hv, rfl⟩))))))
    · exact .inl ⟨_, rfl⟩
  | halt =>
    obtain rfl := Host.Outcome.next.inj h
    exact .inr (.inr (.inr (.inr (.inr (.inr (.inr ⟨rfl, rfl⟩))))))

/-- A writing instruction with its word at hand and its destination in range completes: the one write at the
destination, the pointer past the instruction, the run state as it was. -/
theorem exec_of_resultWord {s : State} {i : Instr} {d v : Int} (hd : destOf i = some d) (hr : InRange s d)
    (hv : ResultWord s i v) :
    ∃ t, exec i s = .next t ∧ WritesOnly s t d v ∧ t.run = s.run ∧ t.ip = s.ip + 1 + i.params.length := by
  obtain ⟨m, hm⟩ := s.mem.exists_write v hr
  have hw (t : State) (ht : t.mem = m) : WritesOnly s t d v := writesOnly_of_write hm ht
  cases i with
  | add m1 m2 m3 p1 p2 p3 =>
    obtain rfl : p3 = d := Option.some.inj hd
    obtain ⟨a, b, h1, h2, rfl, hf⟩ := hv
    exact ⟨(s.setMem m).advance 3, by simp [exec, execAdd, withOperands_of_resolves _ m3 _ h1 h2 hr, commitResult,
      commitWrite, hf, hm], hw _ rfl, rfl, rfl⟩
  | mult m1 m2 m3 p1 p2 p3 =>
    obtain rfl : p3 = d := Option.some.inj hd
    obtain ⟨a, b, h1, h2, rfl, hf⟩ := hv
    exact ⟨(s.setMem m).advance 3, by simp [exec, execMult, withOperands_of_resolves _ m3 _ h1 h2 hr, commitResult,
      commitWrite, hf, hm], hw _ rfl, rfl, rfl⟩
  | lessThan m1 m2 m3 p1 p2 p3 =>
    obtain rfl : p3 = d := Option.some.inj hd
    obtain ⟨a, b, h1, h2, rfl⟩ := hv
    exact ⟨(s.setMem m).advance 3, by simp [exec, execLessThan, withOperands_of_resolves _ m3 _ h1 h2 hr, commitWrite,
      boolWord, lessThanTest, hm], hw _ rfl, rfl, rfl⟩
  | equals m1 m2 m3 p1 p2 p3 =>
    obtain rfl : p3 = d := Option.some.inj hd
    obtain ⟨a, b, h1, h2, rfl⟩ := hv
    exact ⟨(s.setMem m).advance 3, by simp [exec, execEquals, withOperands_of_resolves _ m3 _ h1 h2 hr, commitWrite,
      boolWord, equalsTest, hm], hw _ rfl, rfl, rfl⟩
  | store m1 p1 =>
    obtain rfl : p1 = d := Option.some.inj hd
    obtain ⟨hp, hf⟩ := hv
    exact ⟨(s.inPop.setMem m).advance 1, by simp [exec, execStore, (inBounds_iff_inRange s p1).mpr hr, State.inPeek,
      hp, hf, commitWrite, State.inPop, hm], hw _ rfl, rfl, rfl⟩
  | output _ _ | jumpIfTrue _ _ _ _ | jumpIfFalse _ _ _ _ | halt => exact hv.elim

/-! ### Fetch -/

/-- The parameter words read are the words at `ip + k`, ..., one for each parameter (30_encoding.md R72). -/
theorem readParams_ok {mem : Memory} {ip : Int} {n k : Nat} {ps : List Int} (h : readParams mem ip n k = .ok ps) :
    ps.length = n ∧ ∀ j, j < n → mem.read (ip + (k + j : Nat)) = ps[j]? := by
  induction n generalizing k ps with
  | zero =>
    obtain rfl := Except.ok.inj h
    simp
  | succ n ih =>
    unfold readParams at h
    split at h
    · cases h
    · next v hv =>
      split at h
      · cases h
      · next vs hvs =>
        obtain rfl := Except.ok.inj h
        obtain ⟨hl, hr⟩ := ih hvs
        refine ⟨by simp [hl], fun j hj => ?_⟩
        cases j with
        | zero => simpa using hv
        | succ j => simpa [Nat.add_assoc, Nat.add_comm 1 j] using hr j (by omega)

/-- The only fault of the parameter fetch is OutOfBoundsAccess(PARAM). -/
theorem readParams_error {mem : Memory} {ip : Int} {n k : Nat} {c : Cause} (h : readParams mem ip n k = .error c) :
    ∃ a, c = .outOfBounds .param a := by
  induction n generalizing k with
  | zero => cases h
  | succ n ih =>
    unfold readParams at h
    split at h
    · exact ⟨_, (Except.error.inj h).symm⟩
    · split at h
      · next c' hc =>
        obtain rfl := Except.error.inj h
        exact ih hc
      · cases h

/-- What a fetch that answers an instruction has read. -/
theorem fetchInstr_ok {s : State} {i : Instr} (h : fetchInstr s = .ok i) :
    ∃ w hd ps, s.mem.read s.ip = some w ∧ decodeWord w = .ok hd ∧
      readParams s.mem s.ip hd.op.paramCount 1 = .ok ps ∧ i = hd.instr ps := by
  unfold fetchInstr at h
  split at h
  · cases h
  · next w hw =>
    split at h
    · cases h
    · next hd hdec =>
      split at h
      · cases h
      · next ps hps => exact ⟨w, hd, ps, hw, hdec, hps, (Except.ok.inj h).symm⟩

/-- What a fetch that faults records: the word at the pointer, or 0 where there is none. -/
theorem fetchInstr_error {s : State} {c : Cause} {w : Int} (h : fetchInstr s = .error (c, w)) :
    w = (s.mem.read s.ip).getD 0 := by
  unfold fetchInstr at h
  split at h
  · next hr => simpa [hr, eq_comm] using congrArg Prod.snd (Except.error.inj h)
  · next w' hr =>
    rw [hr]
    split at h
    · exact (congrArg Prod.snd (Except.error.inj h)).symm
    · split at h
      · exact (congrArg Prod.snd (Except.error.inj h)).symm
      · cases h

/-! ### The step -/

/-- A step that answers a next state runs from RUNNING, and faults in phases 1 to 3 or runs the instruction fetched. -/
theorem step_cases {s t : State} (h : step s = .next t) :
    s.run = .running ∧
      ((∃ c w, fetchInstr s = .error (c, w) ∧ t = enterFault c w s) ∨
        ∃ i, fetchInstr s = .ok i ∧ exec i s = .next t) := by
  unfold step at h
  split at h
  · next hr =>
    refine ⟨hr, ?_⟩
    split at h
    · next c w hf => exact .inl ⟨c, w, hf, (Host.Outcome.next.inj h).symm⟩
    · next i hf => exact .inr ⟨i, hf, h⟩
  all_goals cases h

/-- A step of a running core is the instruction it fetches. -/
theorem step_of_fetchInstr {s : State} {i : Instr} (hr : s.run = .running) (h : fetchInstr s = .ok i) :
    step s = exec i s := by
  simp [step, hr, h]

/-- A step of a running core whose fetch faults takes that fault. -/
theorem step_of_fetch_error {s : State} {c : Cause} {w : Int} (hr : s.run = .running)
    (h : fetchInstr s = .error (c, w)) : step s = .next (enterFault c w s) := by
  simp [step, hr, h, raise]

end Sys2Proof.Machine
end

