-- ==== Sys2Proof/Laws/PerInstr.lean ====
section
/-! SUPPORT. Statements about the instructions as syntax, one lemma per constructor. -/

namespace Sys2Proof.Laws.LegalWord

/-- The instruction word is one of the 45 legal ones (30_encoding.md R74), and its opcode field is that of an opcode
with as many parameters as the instruction has words after it (R60, R65, R77). -/
def Statement (i : Instr) : Prop :=
  encodeWord i ∈ legalWords ∧
    ∃ op, Opcode.ofNumber (opcodeField (encodeWord i).toNat) = some op ∧ op.paramCount = i.params.length

theorem add (m1 m2 m3 : Mode) (p1 p2 p3 : Int) : Statement (.add m1 m2 m3 p1 p2 p3) := by
  refine ⟨?_, .add, ?_, rfl⟩ <;> cases m1 <;> cases m2 <;> cases m3 <;> first | rfl | (simp only [encodeWord]; decide)

theorem mult (m1 m2 m3 : Mode) (p1 p2 p3 : Int) : Statement (.mult m1 m2 m3 p1 p2 p3) := by
  refine ⟨?_, .mult, ?_, rfl⟩ <;> cases m1 <;> cases m2 <;> cases m3 <;> first | rfl | (simp only [encodeWord]; decide)

theorem store (m1 : Mode) (p1 : Int) : Statement (.store m1 p1) := by
  refine ⟨?_, .store, ?_, rfl⟩ <;> cases m1 <;> first | rfl | (simp only [encodeWord]; decide)

theorem output (m1 : Mode) (p1 : Int) : Statement (.output m1 p1) := by
  refine ⟨?_, .output, ?_, rfl⟩ <;> cases m1 <;> first | rfl | (simp only [encodeWord]; decide)

theorem jumpIfTrue (m1 m2 : Mode) (p1 p2 : Int) : Statement (.jumpIfTrue m1 m2 p1 p2) := by
  refine ⟨?_, .jumpIfTrue, ?_, rfl⟩ <;> cases m1 <;> cases m2 <;> first | rfl | (simp only [encodeWord]; decide)

theorem jumpIfFalse (m1 m2 : Mode) (p1 p2 : Int) : Statement (.jumpIfFalse m1 m2 p1 p2) := by
  refine ⟨?_, .jumpIfFalse, ?_, rfl⟩ <;> cases m1 <;> cases m2 <;> first | rfl | (simp only [encodeWord]; decide)

theorem lessThan (m1 m2 m3 : Mode) (p1 p2 p3 : Int) : Statement (.lessThan m1 m2 m3 p1 p2 p3) := by
  refine ⟨?_, .lessThan, ?_, rfl⟩ <;> cases m1 <;> cases m2 <;> cases m3 <;> first | rfl | (simp only [encodeWord]; decide)

theorem equals (m1 m2 m3 : Mode) (p1 p2 p3 : Int) : Statement (.equals m1 m2 m3 p1 p2 p3) := by
  refine ⟨?_, .equals, ?_, rfl⟩ <;> cases m1 <;> cases m2 <;> cases m3 <;> first | rfl | (simp only [encodeWord]; decide)

theorem halt : Statement .halt := by
  refine ⟨?_, .halt, ?_, rfl⟩ <;> decide

end Sys2Proof.Laws.LegalWord
end

