-- ==== Sys2Proof/Laws/Decode.lean ====
section
/-! SUPPORT. The decoder and the encoder: what a word that decodes is, and what the encoder's words are. -/

namespace Sys2Proof

/-! ### Opcodes and digits -/

theorem Opcode.ofNumber_number (op : Opcode) : Opcode.ofNumber op.number = some op := by
  cases op <;> rfl

theorem Opcode.number_of_ofNumber {n : Nat} {op : Opcode} (h : Opcode.ofNumber n = some op) : op.number = n := by
  unfold Opcode.ofNumber at h
  split at h <;> cases h <;> rfl

theorem Opcode.ofNumber_eq_none {n : Nat} (h : n ∉ [1, 2, 3, 4, 5, 6, 7, 8, 99]) : Opcode.ofNumber n = none := by
  unfold Opcode.ofNumber
  split <;> simp_all

/-- A digit names a mode exactly when it is 0 or 1 (30_encoding.md R63, R68). -/
theorem Mode.ofDigit_isSome_iff {d : Nat} : (Mode.ofDigit d).isSome = true ↔ d ≤ 1 := by
  match d with
  | 0 | 1 => simp [Mode.ofDigit]
  | d + 2 => simp [Mode.ofDigit]

theorem digit_modeOf {k w : Nat} (h : modeDigit k w ≤ 1) : (modeOf k w).digit = modeDigit k w := by
  unfold modeOf
  match hd : modeDigit k w with
  | 0 | 1 => rfl
  | d + 2 => omega

/-- No mode digit is bad exactly when each of the `n` digits from `k` on is 0 or 1 (30_encoding.md R68). -/
theorem firstBadMode_eq_none_iff {w n k : Nat} :
    firstBadMode w n k = none ↔ ∀ j, k ≤ j → j < k + n → modeDigit j w ≤ 1 := by
  induction n generalizing k with
  | zero => exact ⟨fun _ j hj hl => by omega, fun _ => rfl⟩
  | succ n ih =>
    unfold firstBadMode
    split
    · next h =>
      rw [Mode.ofDigit_isSome_iff] at h
      refine ih.trans ⟨fun g j hj hl => ?_, fun g j hj hl => g j (by omega) (by omega)⟩
      rcases Nat.eq_or_lt_of_le hj with rfl | hj
      · exact h
      · exact g j hj (by omega)
    · next h =>
      rw [Mode.ofDigit_isSome_iff] at h
      exact ⟨nofun, fun g => absurd (g k (le_refl k) (by omega)) h⟩

/-- The first bad mode digit is the one found (30_encoding.md R68). -/
theorem firstBadMode_eq_some {w n k b : Nat} (hb : k ≤ b) (hbn : b < k + n) (hbad : ¬ modeDigit b w ≤ 1)
    (hok : ∀ j, k ≤ j → j < b → modeDigit j w ≤ 1) : firstBadMode w n k = some b := by
  induction n generalizing k with
  | zero => omega
  | succ n ih =>
    unfold firstBadMode
    rcases Nat.eq_or_lt_of_le hb with rfl | hlt
    · rw [if_neg (by rwa [Mode.ofDigit_isSome_iff])]
    · rw [if_pos (by rw [Mode.ofDigit_isSome_iff]; exact hok k (le_refl k) hlt)]
      exact ih hlt (by omega) fun j hj hl => hok j (by omega) hl

/-! ### Words that decode -/

/-- What a word that decodes is: not negative, its opcode and modes its decimal digits, and no digit above them. -/
theorem decodeWord_eq_ok {w : Int} {h : Head} (hd : decodeWord w = .ok h) :
    0 ≤ w ∧ h.op.number = w.toNat % 100 ∧ h.m1.digit = w.toNat / 100 % 10 ∧ h.m2.digit = w.toNat / 1000 % 10 ∧
      h.m3.digit = w.toNat / 10000 % 10 ∧ w.toNat < 10 ^ (h.op.paramCount + 2) := by
  unfold decodeWord at hd
  split at hd
  · cases hd
  next hw =>
  split at hd
  · cases hd
  next op hop =>
  split at hd
  · cases hd
  next hb =>
  split at hd
  · cases hd
  next he =>
  obtain rfl := Except.ok.inj hd
  rw [firstBadMode_eq_none_iff] at hb
  have hlt : w.toNat < 10 ^ (op.paramCount + 2) := by
    rw [not_not, Nat.div_eq_zero_iff] at he
    exact he.resolve_left (by positivity)
  have digit (k : Nat) (hk : 1 ≤ k) : (modeOf k w.toNat).digit = modeDigit k w.toNat := by
    refine digit_modeOf ?_
    by_cases hk' : k < 1 + op.paramCount
    · exact hb k hk hk'
    · have : w.toNat / 10 ^ (k + 1) = 0 :=
        Nat.div_eq_of_lt (lt_of_lt_of_le hlt (Nat.pow_le_pow_right (by decide) (by omega)))
      simp [modeDigit, this]
  exact ⟨by omega, Opcode.number_of_ofNumber hop, digit 1 (by decide), digit 2 (by decide), digit 3 (by decide), hlt⟩

/-- The instruction made of a decoded word encodes to that word, whatever its parameters. -/
theorem encodeWord_headInstr {w : Int} {h : Head} (hd : decodeWord w = .ok h) (ps : List Int) :
    encodeWord (h.instr ps) = w := by
  obtain ⟨h0, hop, h1, h2, h3, hlt⟩ := decodeWord_eq_ok hd
  obtain ⟨op, m1, m2, m3⟩ := h
  cases op <;> simp only [Opcode.number, Opcode.paramCount] at * <;> simp only [Head.instr, encodeWord, wordOf] <;> omega

/-- The instruction made of a decoded word has the parameter words it was given. -/
theorem params_headInstr {h : Head} {ps : List Int} (hl : ps.length = h.op.paramCount) : (h.instr ps).params = ps := by
  obtain ⟨op, m1, m2, m3⟩ := h
  cases op <;> simp only [Opcode.paramCount] at hl <;>
    (rcases ps with _ | ⟨a, _ | ⟨b, _ | ⟨c, _ | _⟩⟩⟩) <;> simp at hl <;> rfl

/-- The encoder's word decodes, to a head that makes the instruction again from its parameter words. -/
theorem decodeWord_encodeWord (i : Instr) :
    ∃ h, decodeWord (encodeWord i) = .ok h ∧ h.op.paramCount = i.params.length ∧ h.instr i.params = i := by
  cases i with
  | add m1 m2 m3 =>
    exact ⟨⟨.add, m1, m2, m3⟩, by cases m1 <;> cases m2 <;> cases m3 <;> (simp only [encodeWord]; decide), rfl, rfl⟩
  | mult m1 m2 m3 =>
    exact ⟨⟨.mult, m1, m2, m3⟩, by cases m1 <;> cases m2 <;> cases m3 <;> (simp only [encodeWord]; decide), rfl, rfl⟩
  | lessThan m1 m2 m3 =>
    exact ⟨⟨.lessThan, m1, m2, m3⟩, by cases m1 <;> cases m2 <;> cases m3 <;> (simp only [encodeWord]; decide), rfl, rfl⟩
  | equals m1 m2 m3 =>
    exact ⟨⟨.equals, m1, m2, m3⟩, by cases m1 <;> cases m2 <;> cases m3 <;> (simp only [encodeWord]; decide), rfl, rfl⟩
  | jumpIfTrue m1 m2 =>
    exact ⟨⟨.jumpIfTrue, m1, m2, .position⟩, by cases m1 <;> cases m2 <;> (simp only [encodeWord]; decide), rfl, rfl⟩
  | jumpIfFalse m1 m2 =>
    exact ⟨⟨.jumpIfFalse, m1, m2, .position⟩, by cases m1 <;> cases m2 <;> (simp only [encodeWord]; decide), rfl, rfl⟩
  | store m1 => exact ⟨⟨.store, m1, .position, .position⟩, by cases m1 <;> (simp only [encodeWord]; decide), rfl, rfl⟩
  | output m1 => exact ⟨⟨.output, m1, .position, .position⟩, by cases m1 <;> (simp only [encodeWord]; decide), rfl, rfl⟩
  | halt => exact ⟨⟨.halt, .position, .position, .position⟩, by decide, rfl, rfl⟩

/-- Every instruction word lies between 0 and 11108 (92_eei_decisions.md D1). -/
theorem encodeWord_bounds (i : Instr) : 0 ≤ encodeWord i ∧ encodeWord i ≤ 11108 := by
  have mode (m : Mode) : m.digit ≤ 1 := by cases m <;> decide
  cases i with
  | add m1 m2 m3 | mult m1 m2 m3 | lessThan m1 m2 m3 | equals m1 m2 m3 =>
    have := mode m1; have := mode m2; have := mode m3
    simp only [encodeWord, wordOf]; omega
  | jumpIfTrue m1 m2 | jumpIfFalse m1 m2 =>
    have := mode m1; have := mode m2
    simp only [encodeWord, wordOf]; omega
  | store m1 | output m1 =>
    have := mode m1
    simp only [encodeWord, wordOf]; omega
  | halt => decide

namespace Machine

/-! ### Fetch and decode together -/

/-- The word at the pointer of a state that fetches `i` is the instruction word of `i`. -/
theorem read_of_fetchInstr {s : State} {i : Instr} (h : fetchInstr s = .ok i) :
    s.mem.read s.ip = some (encodeWord i) := by
  obtain ⟨w, hd, ps, hw, hdec, -, rfl⟩ := fetchInstr_ok h
  rw [encodeWord_headInstr hdec, hw]

/-- Where the parameter words can be read, the parameter fetch reads them (30_encoding.md R72). -/
theorem readParams_of_reads {mem : Memory} {ip : Int} {n k : Nat} {ps : List Int} (hl : ps.length = n)
    (h : ∀ j, j < n → mem.read (ip + (k + j : Nat)) = ps[j]?) : readParams mem ip n k = .ok ps := by
  induction n generalizing k ps with
  | zero => rw [List.length_eq_zero_iff.mp hl]; rfl
  | succ n ih =>
    cases ps with
    | nil => simp at hl
    | cons p ps =>
      have h0 : mem.read (ip + k) = some p := by simpa using h 0 (by omega)
      have hs : readParams mem ip n (k + 1) = .ok ps := by
        refine ih (by simpa using hl) fun j hj => ?_
        simpa [Nat.add_assoc, Nat.add_comm 1 j] using h (j + 1) (by omega)
      simp [readParams, h0, hs]

/-- The first parameter word out of range is the fault of the parameter fetch (30_encoding.md R72). -/
theorem readParams_missing {s : State} {n k b : Nat} (hb : k ≤ b) (hbn : b < k + n) (hbad : ¬ InRange s (s.ip + b))
    (hok : ∀ j : Nat, k ≤ j → j < b → InRange s (s.ip + j)) :
    readParams s.mem s.ip n k = .error (.outOfBounds .param (s.ip + b)) := by
  induction n generalizing k with
  | zero => omega
  | succ n ih =>
    unfold readParams
    rcases Nat.eq_or_lt_of_le hb with rfl | hlt
    · simp [Memory.read_eq_none_iff.mpr hbad]
    · obtain ⟨v, hv⟩ := (exists_read_iff_inRange s _).mpr (hok k (le_refl k) hlt)
      simp [hv, ih hlt (by omega) fun j hj hl => hok j (by omega) hl]

/-- The numbers a cause records (60_exceptions.md R150, R152). -/
theorem Cause.code_bounds (c : Cause) : 1 ≤ c.code ∧ c.code ≤ 5 ∧ c.kind ≤ 3 ∧ (c.code ≠ 2 → c.kind = 0) := by
  cases c with
  | outOfBounds k a => cases k <;> simp [Cause.code, Cause.kind, AccessKind.code]
  | _ => simp [Cause.code, Cause.kind]

end Machine

end Sys2Proof
end

