-- ==== Sys2Proof/Tests/Slice0.lean ====
section
/-! SUPPORT. Tests of single steps and decodings, their expected results taken from the spec (95_test_vectors.md, named
at each test, and the tables of 30_encoding.md), and a witness for every statement that has hypotheses. -/

namespace Sys2Proof.Tests

open Sys2Proof.Machine

/-! ### Helpers -/

/-- A core with the normative parameters, loaded with an image, at an instruction pointer. -/
def at_ (ip : Int) (image : List Int) : State :=
  { bootState { width := .unbounded, inputMode := .batch } image [] with ip := ip }

/-- The same with `W = 16` and an input sequence. -/
def at16 (image input : List Int) : State := bootState { width := .finite 16, inputMode := .batch } image input

/-- The same with `W = ∞`, `INPUT_MODE = interactive` and an input sequence. -/
def interactive (image input : List Int) : State :=
  bootState { width := .unbounded, inputMode := .interactive } image input

/-- The next state of an outcome. -/
def nextOf (o : Host.Outcome State Fault Refusal) : Option State :=
  match o with
  | .next t => some t
  | .fault _ | .refused _ => none

/-- What a test looks at. -/
structure View where
  run : Run
  ip : Int
  image : List Int
  out : List Int
  cursor : Nat
deriving DecidableEq, Repr

/-- The view of the next state of an outcome. -/
def view (o : Host.Outcome State Fault Refusal) : Option View :=
  (nextOf o).map fun t => { run := t.run, ip := t.ip, image := t.mem.toImage, out := t.outq, cursor := t.cursor }

/-- The fault record of the next state of an outcome, where that state is FAULTED. -/
def faultOf (o : Host.Outcome State Fault Refusal) : Option FaultRecord :=
  (nextOf o).bind fun t => if t.run = .faulted then some t.fault else none

/-! ### Well-formedness: each check refuses an ill-formed term -/

theorem test_config_wf_refuses_width_15 : ({ width := .finite 15, inputMode := .batch } : Config).wf = false := by decide
theorem test_config_wf_accepts_width_16 : ({ width := .finite 16, inputMode := .batch } : Config).wf = true := by decide
theorem test_instr_wf_refuses_a_wide_parameter :
    (Instr.output .immediate 32768).wf { width := .finite 16, inputMode := .batch } = false := by decide
theorem test_instr_wf_refuses_a_wide_third_parameter :
    (Instr.add .position .position .position 0 0 (-32769)).wf { width := .finite 16, inputMode := .batch } = false := by
  decide
theorem test_instr_wf_accepts_the_extremes :
    (Instr.jumpIfTrue .position .immediate 32767 (-32768)).wf { width := .finite 16, inputMode := .batch } = true := by
  decide
theorem test_memory_wf_refuses_a_listed_zero : ¬ ({ size := 3, cells := [(1, 0)] } : Memory).wf := by decide
theorem test_memory_wf_refuses_disorder : ¬ ({ size := 3, cells := [(1, 5), (0, 5)] } : Memory).wf := by decide
theorem test_memory_wf_refuses_a_cell_outside : ¬ ({ size := 3, cells := [(3, 5)] } : Memory).wf := by decide

/-! ### Decoding, the words written from the table of 30_encoding.md R73 and R74 -/

theorem test_decode_add : decode [11001, 5, 6, 7] = .ok (.add .position .immediate .immediate 5 6 7, []) := by decide
theorem test_decode_mult : decode [1002, 4, 3, 4, 33] = .ok (.mult .position .immediate .position 4 3 4, [33]) := by
  decide
theorem test_decode_store : decode [103, 3] = .ok (.store .immediate 3, []) := by decide
theorem test_decode_output : decode [4, -42] = .ok (.output .position (-42), []) := by decide
theorem test_decode_jumpIfTrue : decode [105, 0, 4] = .ok (.jumpIfTrue .immediate .position 0 4, []) := by decide
theorem test_decode_jumpIfFalse : decode [1006, 22, 15] = .ok (.jumpIfFalse .position .immediate 22 15, []) := by decide
theorem test_decode_lessThan : decode [10107, 1, 2, 3] = .ok (.lessThan .immediate .position .immediate 1 2 3, []) := by
  decide
theorem test_decode_equals : decode [8, 9, 10, 9, 4] = .ok (.equals .position .position .position 9 10 9, [4]) := by
  decide
theorem test_decode_halt : decode [99, 1] = .ok (.halt, [1]) := by decide

/-- V9 and section 2.6 of 95_test_vectors.md: the rejected words and their faults. -/
theorem test_decode_rejects :
    decodeWord (-1) = .error .invalidOpcode ∧ decodeWord 0 = .error .invalidOpcode ∧
    decodeWord 9 = .error .invalidOpcode ∧ decodeWord 98 = .error .invalidOpcode ∧
    decodeWord 201 = .error (.invalidMode 1) ∧ decodeWord 20001 = .error (.invalidMode 3) ∧
    decodeWord 1104 = .error (.invalidMode 2) ∧ decodeWord 199 = .error (.invalidMode 1) ∧
    decodeWord 1099 = .error (.invalidMode 1) ∧ decodeWord 100001 = .error (.invalidMode 4) := by decide

theorem test_decode_truncated :
    decode [] = .error (.truncated 0) ∧ decode [1, 0, 0] = .error (.truncated 3) ∧
    decode [301, 0] = .error (.badWord (.invalidMode 1)) := by decide

theorem test_table_word : decodeTableWord 8 4 = some (.output .position 0) ∧ decodeTableWord 8 9 = none := by decide

/-! ### One step of each instruction -/

/-- V1. -/
theorem test_add_in_place : view (step (at_ 0 [1, 0, 0, 0, 99])) = some ⟨.running, 4, [2, 0, 0, 0, 99], [], 0⟩ := by
  decide
/-- T-A3, its first step, and T-A4's ignored destination mode. -/
theorem test_add_modes :
    view (step (at_ 0 [10101, -1, 5, 5, 99, 10])) = some ⟨.running, 4, [10101, -1, 5, 5, 99, 9], [], 0⟩ := by decide
/-- V4: the mode digits are read least significant first. -/
theorem test_mult_digit_order :
    view (step (at_ 0 [1002, 4, 3, 4, 33])) = some ⟨.running, 4, [1002, 4, 3, 4, 99], [], 0⟩ := by decide
/-- T-M5: the product 40000 is no Word when `W = 16`. -/
theorem test_mult_overflow :
    faultOf (step (at16 [1102, 200, 200, 5, 99, 0] [])) = some ⟨5, 0, 0, 1102, 40000⟩ := by decide
/-- T-S7: STORE overwrites its own word. -/
theorem test_store_over_itself :
    view (step (at16 [3, 0, 99] [99])) = some ⟨.running, 2, [99, 0, 99], [], 1⟩ := by decide
/-- T-S5: the destination is checked before the channel. -/
theorem test_store_destination_first : faultOf (step (at_ 0 [3, 9, 99])) = some ⟨2, 3, 0, 3, 9⟩ := by decide
/-- T-O1. -/
theorem test_output_negative : view (step (at_ 0 [104, -42, 99])) = some ⟨.running, 2, [104, -42, 99], [-42], 0⟩ := by
  decide
/-- T-O2. -/
theorem test_output_out_of_range : faultOf (step (at_ 0 [4, 50, 99])) = some ⟨2, 2, 0, 4, 50⟩ := by decide
/-- T-J6: a negative target is loaded as it is. -/
theorem test_jumpIfTrue_negative_target :
    view (step (at_ 0 [1105, 1, -1, 99])) = some ⟨.running, -1, [1105, 1, -1, 99], [], 0⟩ := by decide
/-- T-J7: the target is read although the jump would not fire. -/
theorem test_jumpIfTrue_reads_its_target :
    faultOf (step (at_ 0 [5, 3, 100, 0, 99])) = some ⟨2, 2, 0, 5, 100⟩ := by decide
/-- T-J3 and T-J4. -/
theorem test_jumpIfFalse :
    (nextOf (step (at_ 0 [1106, 0, 4, 0, 99]))).map State.ip = some 4 ∧
    (nextOf (step (at_ 0 [1106, 5, 4, 99, 0]))).map State.ip = some 3 := by decide
/-- T-C3 and T-C2: signed and strict. -/
theorem test_lessThan :
    view (step (at_ 0 [1107, -1, 0, 5, 99, 7])) = some ⟨.running, 4, [1107, -1, 0, 5, 99, 1], [], 0⟩ ∧
    view (step (at_ 0 [1107, 5, 5, 0, 99])) = some ⟨.running, 4, [0, 5, 5, 0, 99], [], 0⟩ := by decide
/-- V6 and V7, their second step: the destination is a source. -/
theorem test_equals :
    view (step (at_ 2 [3, 9, 8, 9, 10, 9, 4, 9, 99, 8, 8])) =
      some ⟨.running, 6, [3, 9, 8, 9, 10, 9, 4, 9, 99, 1, 8], [], 0⟩ ∧
    view (step (at_ 2 [3, 9, 8, 9, 10, 9, 4, 9, 99, 7, 8])) =
      some ⟨.running, 6, [3, 9, 8, 9, 10, 9, 4, 9, 99, 0, 8], [], 0⟩ := by decide
/-- T-H1 and T-H2. -/
theorem test_halt :
    view (step (at_ 0 [99])) = some ⟨.halted, 0, [99], [], 0⟩ ∧
    faultOf (step (at_ 0 [199])) = some ⟨4, 0, 0, 199, 1⟩ := by decide

/-! ### Faults before the instruction's own phases, the host, the assembler -/

/-- T-B1, T-B3, T-D9. -/
theorem test_fetch_faults :
    faultOf (step (at_ 0 [])) = some ⟨2, 0, 0, 0, 0⟩ ∧
    faultOf (step (at_ 0 [1, 0, 0])) = some ⟨2, 1, 0, 1, 3⟩ ∧
    faultOf (step (at_ 0 [301, 0])) = some ⟨4, 0, 0, 301, 1⟩ := by decide
/-- T-S4: the wait, and the STORE run again after the host appends 6. -/
theorem test_wait_and_resume :
    view (step (interactive [3, 3, 99, 0] [])) = some ⟨.waitInput, 0, [3, 3, 99, 0], [], 0⟩ ∧
    ((nextOf (step (interactive [3, 3, 99, 0] []))).map fun t => view (step (t.appendInput 6))) =
      some (some ⟨.running, 2, [3, 3, 99, 6], [], 1⟩) := by decide
theorem test_boot_refuses_a_wide_word :
    (match boot { width := .finite 16, inputMode := .batch } [40000] [] with
      | .refused .imageWordOutOfRange => true
      | _ => false) = true := by decide
/-- The host's table word, run as the first instruction after reset. -/
theorem test_withFetchWord :
    view (step (State.reset.withFetchWord 8 4)) = some ⟨.running, 2, [4, 0, 0, 0], [4], 0⟩ ∧
    (State.reset.withFetchWord 8 4).mem.wf := by decide
/-- A write that restores a word gives the equal memory back: the form is canonical. -/
theorem test_memory_canonical :
    ((Memory.ofImage [1, 0, 7]).write 1 5).bind (fun m => m.write 1 0) = some (Memory.ofImage [1, 0, 7]) := by decide
/-- The listing of program P1 of 95_test_vectors.md. -/
theorem test_assemble_countdown :
    Asm.assembleText ["loop: OUTPUT 10          ; emit the counter".toList,
        "ADD #-1, 10, 10    ; counter <- counter - 1".toList, "JUMP-IF-TRUE 10, #loop".toList, "HALT".toList,
        "count: .word 3".toList] =
      some [4, 10, 101, -1, 10, 10, 1005, 10, 0, 99, 3] := by decide
theorem test_assemble_refuses_a_label_twice :
    Asm.assembleText ["a: HALT".toList, "a: STORE #a".toList] = none ∧
    Asm.assembleText ["a:".toList, "b: STORE #a".toList] = some [103, 0] := by decide
theorem test_assemble_refuses_a_missing_operand :
    Asm.assemble [⟨none, some (.instr .add [⟨.immediate, .int 1⟩])⟩] = none := by decide

/-! ### Witnesses: a state and operands that meet the hypotheses of each statement -/

theorem witness_DecodedWordsAreTheEncoding :
    decode [11108, -1, 0, 5, 7] = .ok (.equals .immediate .immediate .immediate (-1) 0 5, [7]) := by decide

theorem witness_FieldsAreDecimalDigits :
    decodeWord ((11107 : Nat) : Int) = .ok ⟨.lessThan, .immediate, .immediate, .immediate⟩ ∧
    decodeWord ((99 : Nat) : Int) = .ok ⟨.halt, .position, .position, .position⟩ := by decide

theorem witness_EncodedWordsFit : ({ width := .finite 16, inputMode := .interactive } : Config).wf = true := by decide

theorem witness_AssembledLineIsTheEncoding :
    [(⟨.immediate, .label "t"⟩ : Asm.Operand), ⟨.position, .int (-1)⟩].length = Opcode.jumpIfTrue.paramCount ∧
    Asm.valuesOf [("t", 7)] [⟨.immediate, .label "t"⟩, ⟨.position, .int (-1)⟩] = some [7, -1] := by decide

theorem witness_StepRunsTheDecodedInstruction :
    (at_ 1 [0, 101, -1, 5, 0, 99]).run = .running ∧
    ∀ k : Nat, k < (encode (.add .immediate .position .position (-1) 5 0)).length →
      (at_ 1 [0, 101, -1, 5, 0, 99]).mem.read (1 + k) = (encode (.add .immediate .position .position (-1) 5 0))[k]? := by
  decide

theorem witness_FetchOutsideMemoryFaults :
    ((at_ 1 [99]).run = .running ∧ ¬ InRange (at_ 1 [99]) 1) ∧
    ((at_ (-1) [99]).run = .running ∧ ¬ InRange (at_ (-1) [99]) (-1)) := by
  refine ⟨⟨rfl, fun h => ?_⟩, rfl, fun h => ?_⟩
  · exact absurd h.2 (by decide)
  · exact absurd h.1 (by decide)

theorem witness_UnknownOpcodeFaults :
    ((at_ 0 [-1]).mem.read 0 = some (-1) ∧ (-1 : Int) < 0) ∧
    ((at_ 0 [98]).mem.read 0 = some 98 ∧ (98 : Int) % 100 ∉ ([1, 2, 3, 4, 5, 6, 7, 8, 99] : List Int)) := by decide

/-- Both clauses: a bad third mode digit (a destination's), and an excess digit above three good ones and above none. -/
theorem witness_BadModeDigitFaults :
    ((at_ 0 [20001]).mem.read 0 = some 20001 ∧ (20001 : Int) % 100 = (Opcode.add.number : Int) ∧
      1 < (20001 : Int) / 10 ^ (3 + 1) % 10 ∧ ∀ j : Nat, j < 3 → 1 ≤ j → (20001 : Int) / 10 ^ (j + 1) % 10 ≤ 1) ∧
    ((at_ 0 [111101]).mem.read 0 = some 111101 ∧ (111101 : Int) % 100 = (Opcode.add.number : Int) ∧
      (∀ j : Nat, j < 4 → 1 ≤ j → (111101 : Int) / 10 ^ (j + 1) % 10 ≤ 1) ∧ (111101 : Int) / 10 ^ (3 + 2) ≠ 0) ∧
    ((at_ 0 [199]).mem.read 0 = some 199 ∧ (199 : Int) % 100 = (Opcode.halt.number : Int) ∧
      (199 : Int) / 10 ^ (Opcode.halt.paramCount + 2) ≠ 0) := by decide

theorem witness_MissingParameterWordFaults :
    (at_ 0 [1, 0, 0]).mem.read 0 = some 1 ∧ decodeWord 1 = .ok ⟨.add, .position, .position, .position⟩ ∧
    (∀ j : Nat, 1 ≤ j → j < 3 → InRange (at_ 0 [1, 0, 0]) (0 + j)) ∧ ¬ InRange (at_ 0 [1, 0, 0]) (0 + (3 : Nat)) := by
  refine ⟨by decide, by decide, fun j h1 h3 => ⟨by omega, ?_⟩, fun h => absurd h.2 (by decide)⟩
  change (0 : Int) + j < 3
  omega

theorem witness_NoStepUnlessRunning :
    ∃ h f w : State, h.run = .halted ∧ f.run = .faulted ∧ w.run = .waitInput :=
  ⟨State.reset.setRun .halted, State.reset.setRun .faulted, State.reset.setRun .waitInput, rfl, rfl, rfl⟩

/-- Operands of the four ALU instructions at the ends of the array, and results at the ends of the Word range. -/
theorem witness_AluInstructionsComplete :
    Resolves (at16 [32767, 0, -32768] []) .position 0 32767 ∧ Resolves (at16 [32767, 0, -32768] []) .immediate 0 0 ∧
    Resolves (at16 [32767, 0, -32768] []) .position 2 (-32768) ∧ Resolves (at16 [32767, 0, -32768] []) .immediate 1 1 ∧
    InRange (at16 [32767, 0, -32768] []) 0 ∧ InRange (at16 [32767, 0, -32768] []) 2 ∧
    fits (at16 [32767, 0, -32768] []).config (32767 + 0) = true ∧
    fits (at16 [32767, 0, -32768] []).config (-32768 * 1) = true :=
  ⟨.inr ⟨rfl, by decide⟩, .inl ⟨rfl, rfl⟩, .inr ⟨rfl, by decide⟩, .inl ⟨rfl, rfl⟩, ⟨by decide, by decide⟩,
    ⟨by decide, by decide⟩, by decide, by decide⟩

theorem witness_StoreTakesTheNextInput :
    InRange (at16 [3, 1] [-32768]) 1 ∧ (at16 [3, 1] [-32768]).inq[(at16 [3, 1] [-32768]).cursor]? = some (-32768) ∧
    fits (at16 [3, 1] [-32768]).config (-32768) = true :=
  ⟨⟨by decide, by decide⟩, by decide, by decide⟩

/-- OUTPUT and both jumps: a condition that is zero and one that is not, a target outside the array. -/
theorem witness_OutputAndJumpsComplete :
    Resolves (at_ 0 [0, -1]) .position 0 0 ∧ Resolves (at_ 0 [0, -1]) .position 1 (-1) ∧
    Resolves (at_ 0 [0, -1]) .immediate 2 2 ∧ ¬ InRange (at_ 0 [0, -1]) 2 ∧ ¬ InRange (at_ 0 [0, -1]) (-1) :=
  ⟨.inr ⟨rfl, by decide⟩, .inr ⟨rfl, by decide⟩, .inl ⟨rfl, rfl⟩, fun h => absurd h.2 (by decide),
    fun h => absurd h.1 (by decide)⟩

theorem witness_FirstBadSourceFaults :
    sourcesOf (.jumpIfTrue .immediate .position 0 9) = [(.immediate, 0)] ++ (.position, 9) :: [] ∧
    sourcesOf (.add .position .position .position (-1) 9 0) = [] ++ (.position, -1) :: [(.position, 9)] ∧
    ¬ InRange (at_ 0 [1, 2]) 9 ∧ ¬ InRange (at_ 0 [1, 2]) (-1) :=
  ⟨rfl, rfl, fun h => absurd h.2 (by decide), fun h => absurd h.1 (by decide)⟩

theorem witness_BadDestinationFaults :
    destOf (.store .immediate 2) = some 2 ∧ ¬ InRange (at_ 0 [3, 2]) 2 ∧
    destOf (.add .immediate .position .position 1 1 (-1)) = some (-1) ∧ InRange (at_ 0 [3, 2]) 1 ∧
    ¬ InRange (at_ 0 [3, 2]) (-1) :=
  ⟨rfl, fun h => absurd h.2 (by decide), rfl, ⟨by decide, by decide⟩, fun h => absurd h.1 (by decide)⟩

theorem witness_OverflowFaults :
    (at_ 0 []).config.width = .unbounded ∧ (at16 [3, 1] [32768]).config.width = .finite 16 ∧
    Resolves (at16 [3, 1] [32768]) .immediate 32767 32767 ∧ Resolves (at16 [3, 1] [32768]) .position 1 1 ∧
    Resolves (at16 [3, 1] [32768]) .immediate (-32768) (-32768) ∧ Resolves (at16 [3, 1] [32768]) .immediate (-1) (-1) ∧
    InRange (at16 [3, 1] [32768]) 1 ∧ fits (at16 [3, 1] [32768]).config (32767 + 1) = false ∧
    fits (at16 [3, 1] [32768]).config (-32768 * -1) = false ∧
    (at16 [3, 1] [32768]).inq[(at16 [3, 1] [32768]).cursor]? = some 32768 ∧
    fits (at16 [3, 1] [32768]).config 32768 = false :=
  ⟨rfl, rfl, .inl ⟨rfl, rfl⟩, .inr ⟨rfl, by decide⟩, .inl ⟨rfl, rfl⟩, .inl ⟨rfl, rfl⟩, ⟨by decide, by decide⟩,
    by decide, by decide, by decide, by decide⟩

theorem witness_EmptyChannelFaultsOrWaits :
    InRange (at_ 0 [3, 1]) 1 ∧ (at_ 0 [3, 1]).inq.length ≤ (at_ 0 [3, 1]).cursor ∧
    (at_ 0 [3, 1]).config.inputMode = .batch ∧
    InRange (interactive [3, 1] []) 1 ∧ (interactive [3, 1] []).inq.length ≤ (interactive [3, 1] []).cursor ∧
    (interactive [3, 1] []).config.inputMode = .interactive :=
  ⟨⟨by decide, by decide⟩, by decide, rfl, ⟨by decide, by decide⟩, by decide, rfl⟩

theorem witness_WaitIsLifted :
    (interactive [103, 1] []).run = .running ∧ (interactive [103, 1] []).config.inputMode = .interactive ∧
    (interactive [103, 1] []).cursor = (interactive [103, 1] []).inq.length ∧
    (interactive [103, 1] []).mem.read 0 = some (encodeWord (.store .immediate 1)) ∧
    (interactive [103, 1] []).mem.read (0 + 1) = some 1 ∧ InRange (interactive [103, 1] []) 1 ∧
    fits (interactive [103, 1] []).config (-5) = true :=
  ⟨rfl, rfl, rfl, by decide, by decide, ⟨by decide, by decide⟩, rfl⟩

/-- An instruction that completes, and one that faults, each with a second form that differs in the destination's
mode. -/
theorem witness_DestinationModeHasNoEffect :
    nextOf (exec (.store .position 0) (at16 [3, 0] [7])) = some { at16 [7, 0] [7] with cursor := 1, ip := 2 } ∧
    (nextOf (exec (.add .immediate .immediate .position 1 1 9) (at_ 0 [3, 0]))).map State.run = some .faulted := by
  decide

theorem witness_SourcesAreReadBeforeTheWrite :
    (at_ 0 [1, 5, 5, 5, 99, 21]).mem.read 5 = some 21 ∧ fits (at_ 0 [1, 5, 5, 5, 99, 21]).config (21 + 21) = true ∧
    fits (at_ 0 [1, 5, 5, 5, 99, 21]).config (21 * 21) = true ∧
    Resolves (at_ 0 [1, 5, 5, 5, 99, 21]) .position 4 99 ∧
    fits (at_ 0 [1, 5, 5, 5, 99, 21]).config (21 + 99) = true ∧
    fits (at_ 0 [1, 5, 5, 5, 99, 21]).config (21 * 99) = true :=
  ⟨by decide, rfl, rfl, .inr ⟨rfl, by decide⟩, rfl, rfl⟩

/-- The hypotheses for each writing instruction, at both ends of the array: the source's vector V4, and a written word of
each other instruction. -/
theorem witness_WriteIsSeenByTheNextFetch :
    ((at_ 0 [1002, 4, 3, 4, 33]).run = .running ∧ destOf (.mult .position .immediate .position 4 3 4) = some 4 ∧
      InRange (at_ 0 [1002, 4, 3, 4, 33]) 4 ∧
      ResultWord (at_ 0 [1002, 4, 3, 4, 33]) (.mult .position .immediate .position 4 3 4) 99) ∧
    InRange (at16 [7, 0, 1] [104]) 0 ∧
    ResultWord (at16 [7, 0, 1] [104]) (.add .position .immediate .immediate 0 (-8) 0) (-1) ∧
    ResultWord (at16 [7, 0, 1] [104]) (.lessThan .position .position .position 1 2 0) 1 ∧
    ResultWord (at16 [7, 0, 1] [104]) (.equals .position .position .position 1 2 0) 0 ∧
    ResultWord (at16 [7, 0, 1] [104]) (.store .immediate 0) 104 :=
  ⟨⟨rfl, rfl, ⟨by decide, by decide⟩, 33, 3, .inr ⟨rfl, by decide⟩, .inl ⟨rfl, rfl⟩, by decide, rfl⟩,
    ⟨by decide, by decide⟩, ⟨7, -8, .inr ⟨rfl, by decide⟩, .inl ⟨rfl, rfl⟩, by decide, by decide⟩,
    ⟨0, 1, .inr ⟨rfl, by decide⟩, .inr ⟨rfl, by decide⟩, by decide⟩,
    ⟨0, 1, .inr ⟨rfl, by decide⟩, .inr ⟨rfl, by decide⟩, by decide⟩, by decide, by decide⟩

/-- The clauses about the later fetch: a written word 99 that is run and one, -1, that faults, each by the very next step;
and a written word that is the second parameter word of the next instruction. -/
theorem witness_WriteIsSeen_clauses :
    (∃ t, nextOf (step (at_ 0 [1002, 4, 3, 4, 33])) = some t ∧ t.ip = 4 ∧ t.mem.read 4 = some 99 ∧
      decodeWord 99 = .ok ⟨.halt, .position, .position, .position⟩) ∧
    (∃ t, nextOf (step (at_ 0 [1101, 7, -8, 4, 33])) = some t ∧ t.ip = 4 ∧ t.mem.read 4 = some (-1) ∧
      decodeWord (-1) = .error .invalidOpcode) ∧
    ∃ t, nextOf (step (at_ 0 [1101, 2, 2, 6, 1105, 1, 0])) = some t ∧
      fetchInstr t = .ok (.jumpIfTrue .immediate .immediate 1 4) ∧ t.ip + 1 + (1 : Nat) = 6 :=
  ⟨⟨_, rfl, by decide, by decide, by decide⟩, ⟨_, rfl, by decide, by decide, by decide⟩,
    _, rfl, by decide, by decide⟩

/-- One completed instruction of each arm of the statement, STORE both taking a value and waiting. -/
theorem witness_NextPointerSelection :
    (nextOf (exec (.jumpIfTrue .immediate .immediate 1 9) (at_ 0 [0]))).map State.run = some .running ∧
    (nextOf (exec (.jumpIfFalse .immediate .position 1 0) (at_ 0 [0]))).map State.run = some .running ∧
    (nextOf (exec .halt (at_ 0 [0]))).map State.run = some .halted ∧
    (nextOf (exec (.store .position 0) (interactive [0] [1]))).map State.run = some .running ∧
    (nextOf (exec (.store .position 0) (interactive [0] []))).map State.run = some .waitInput ∧
    (nextOf (exec (.output .position 0) (at_ 0 [0]))).map State.run = some .running ∧
    (nextOf (exec (.equals .position .position .position 0 0 0) (at_ 0 [0]))).map State.run = some .running := by
  decide

/-- The frames' hypothesis, `exec` answers a next state: completed, and faulted, for each group. -/
theorem witness_Frames :
    (nextOf (exec (.lessThan .position .immediate .position 0 3 0) (at_ 0 [0]))).isSome = true ∧
    (nextOf (exec (.mult .position .immediate .position 7 3 0) (at_ 0 [0]))).isSome = true ∧
    (nextOf (exec (.store .position 0) (at16 [0] [1]))).isSome = true ∧
    (nextOf (exec (.store .position 1) (at16 [0] [1]))).isSome = true ∧
    (nextOf (exec (.output .position 0) (at_ 0 [0]))).isSome = true ∧
    (nextOf (exec (.jumpIfTrue .position .position 0 1) (at_ 0 [0]))).isSome = true ∧
    (nextOf (exec .halt (at_ 0 [0]))).isSome = true := by decide

/-- Steps that fault at the fetch, at the decoder and in an instruction; that halt; that wait; that emit; that take. -/
theorem witness_StepOutcomes :
    (nextOf (step (at_ 1 [99]))).map State.run = some .faulted ∧
    (nextOf (step (at_ 0 [0]))).map State.run = some .faulted ∧
    (nextOf (step (at_ 0 [4, 2]))).map State.run = some .faulted ∧
    (nextOf (step (at_ 0 [99]))).map State.run = some .halted ∧
    (nextOf (step (interactive [103, 1] []))).map State.run = some .waitInput ∧
    (nextOf (step (at_ 0 [104, 1]))).map State.outq = some [1] ∧
    (nextOf (step (at16 [3, 1] [1]))).map State.cursor = some 1 := by decide

theorem witness_FaultRecordIsSticky :
    ((at_ 0 [0]).setRun .faulted).run = .faulted ∧
    (nextOf (hostMove (.append 1) ((at_ 0 [0]).setRun .faulted))).isSome = true ∧
    (nextOf (hostMove (.reset [99] []) ((at_ 0 [0]).setRun .faulted))).isSome = true := by decide

theorem witness_BootMeetsTheInvariant :
    nextOf (boot { width := .finite 16, inputMode := .interactive } [32767, -32768] [40000]) =
      some (bootState { width := .finite 16, inputMode := .interactive } [32767, -32768] [40000]) := by decide

/-- A state with a finite width that meets the invariant, and a step from it. -/
theorem witness_StepKeepsTheInvariant :
    Inv (at16 [104, 7, 99] []) ∧ (nextOf (step (at16 [104, 7, 99] []))).map State.outq = some [7] := by
  refine ⟨⟨by decide, by decide, by decide, fun a v h => ?_, by decide, by decide, by decide, fun _ => rfl, nofun,
    nofun, nofun⟩, by decide⟩
  obtain ⟨⟨h0, h1⟩, rfl⟩ := Memory.read_eq_some_iff.mp h
  change a < 3 at h1
  interval_cases a <;> decide

theorem witness_FetchedInstructionIsWellFormed :
    fetchInstr (at16 [104, 7, 99] []) = .ok (.output .immediate 7) := by decide

theorem witness_ArrivalTimeOfInputDoesNotMatter :
    (interactive [3, 1] [5]).run = .running ∧ (interactive [3, 1] [5]).config.inputMode = .interactive ∧
    (nextOf (step (interactive [3, 1] [5]))).map State.run = some .running ∧
    (nextOf (step (interactive [3, 1] []))).map State.run = some .waitInput := by decide

theorem witness_FiniteWidthStepIsTheUnboundedStep :
    (nextOf (step (at16 [1101, 32766, 1, 5, 99, 0] []))).map State.run = some .running := by decide

theorem witness_MemoriesThatReadAlikeAreEqual :
    ∃ m m' : Memory, (Memory.ofImage [1, 5]).write 1 0 = some m ∧ m' = Memory.ofImage [1, 0] ∧ m.wf ∧ m'.wf ∧
      m.size = m'.size ∧ ∀ a, m.read a = m'.read a :=
  ⟨{ size := 2, cells := [(0, 1)] }, Memory.ofImage [1, 0], by decide, rfl, by decide, by decide, rfl, fun _ => rfl⟩

theorem witness_ResetLoadsTheImage :
    (at16 [3] []).config.wf = true ∧ sizeFits (at16 [3] []).config [32767, -32768].length = true ∧
    ∀ w ∈ ([32767, -32768] : List Int), fits (at16 [3] []).config w = true := by decide

/-- The boundary of the length under `W = 16`: 32764 words are admitted and 32765 are not. -/
theorem witness_BootRequirements :
    sizeFits { width := .finite 16, inputMode := .batch } 32764 = true ∧
    sizeFits { width := .finite 16, inputMode := .batch } 32765 = false := by decide

theorem witness_HostReadsMemoryOnlyAfterTheRun :
    hostReadMemory ((at_ 0 [99, 0]).setRun .halted) = some [99, 0] ∧
    hostReadMemory ((at_ 0 [99, 0]).setRun .faulted) = some [99, 0] ∧
    hostReadMemory (at_ 0 [99, 0]) = none ∧ hostReadMemory ((at_ 0 [99, 0]).setRun .waitInput) = none := by decide

end Sys2Proof.Tests
end

section
/-! SUPPORT. The proofs of the statements on decoding, on the decoder's faults, on the order of reads and write, and on
the next instruction pointer (30_encoding.md). -/

namespace Sys2Proof

/-! ### Words the decoder rejects -/

theorem decodeWord_of_neg {w : Int} (hw : w < 0) : decodeWord w = .error .invalidOpcode := by
  simp [decodeWord, hw]

/-- An opcode field that is no opcode is rejected whatever the mode digits (30_encoding.md R67). -/
theorem decodeWord_of_unknown_opcode {w : Nat} (hw : w % 100 ∉ [1, 2, 3, 4, 5, 6, 7, 8, 99]) :
    decodeWord w = .error .invalidOpcode := by
  simp [decodeWord, opcodeField, Opcode.ofNumber_eq_none hw]

/-- The first mode digit that names no mode is the one reported (30_encoding.md R68). -/
theorem decodeWord_of_bad_mode {w k : Nat} {op : Opcode} (hop : w % 100 = op.number) (hk : 1 ≤ k)
    (hkn : k ≤ op.paramCount) (hbad : 1 < modeDigit k w) (hok : ∀ j, 1 ≤ j → j < k → modeDigit j w ≤ 1) :
    decodeWord w = .error (.invalidMode k) := by
  have hfirst : firstBadMode w op.paramCount 1 = some k := firstBadMode_eq_some hk (by omega) (by omega) hok
  simp [decodeWord, opcodeField, hop, Opcode.ofNumber_number, hfirst]

/-- With every mode digit legal, a digit above them is reported as parameter `n + 1` (30_encoding.md R69). -/
theorem decodeWord_of_excess_digit {w : Nat} {op : Opcode} (hop : w % 100 = op.number)
    (hok : ∀ j, 1 ≤ j → j ≤ op.paramCount → modeDigit j w ≤ 1) (hex : w / 10 ^ (op.paramCount + 2) ≠ 0) :
    decodeWord w = .error (.invalidMode (op.paramCount + 1)) := by
  have hnone : firstBadMode w op.paramCount 1 = none :=
    firstBadMode_eq_none_iff.mpr fun j hj hl => hok j hj (by omega)
  simp only [decodeWord, opcodeField, Int.toNat_natCast, hop, Opcode.ofNumber_number, hnone, if_pos hex,
    if_neg (Int.natCast_nonneg w).not_gt]

/-- Settles O4: `decodeWord_eq_ok` reads the fields of a word that decodes off its digits. -/
theorem fieldsAreDecimalDigits : Obligations.FieldsAreDecimalDigits := by
  intro w
  refine ⟨rfl, fun _ => rfl, fun h hd => ?_⟩
  obtain ⟨-, hop, h1, h2, h3, -⟩ := decodeWord_eq_ok hd
  exact ⟨hop, h1, h2, h3⟩

namespace Machine

/-! ### A step at a word the decoder rejects -/

/-- A word that is rejected faults with the decoder's cause, nothing but that word having been read (30_encoding.md
R80 phase 2). -/
theorem step_of_decodeWord_error {s : State} {w : Int} {e : DecodeFault} (hrun : s.run = .running)
    (hread : s.mem.read s.ip = some w) (hd : decodeWord w = .error e) :
    step s = .next (enterFault (causeOfDecode e) w s) :=
  step_of_fetch_error hrun (by simp [fetchInstr, hread, hd])

/-- Settles O10: both kinds of word are rejected by the decoder with InvalidOpcode. -/
theorem unknownOpcodeFaults : Obligations.UnknownOpcodeFaults := by
  intro s w hrun hread hw
  suffices hd : decodeWord w = .error .invalidOpcode from step_of_decodeWord_error hrun hread hd
  rcases lt_or_ge w 0 with hneg | hpos
  · exact decodeWord_of_neg hneg
  · lift w to Nat using hpos
    have hop : (w : Int) % 100 ∉ ([1, 2, 3, 4, 5, 6, 7, 8, 99] : List Int) := hw.resolve_left (by omega)
    refine decodeWord_of_unknown_opcode ?_
    simp only [List.mem_cons, List.not_mem_nil, or_false] at hop ⊢
    omega

/-- Settles O11: the decoder's two mode checks, each on the word as a natural number. -/
theorem badModeDigitFaults : Obligations.BadModeDigitFaults := by
  intro s w op hrun hread hpos hop
  lift w to Nat using hpos
  norm_cast at hop
  constructor
  · intro k hk hkn hbad hok
    norm_cast at hbad
    have hd : decodeWord w = .error (.invalidMode k) :=
      decodeWord_of_bad_mode hop hk hkn hbad fun j hj hl => mod_cast hok j hj hl
    exact step_of_decodeWord_error hrun hread hd
  · intro hok hex
    norm_cast at hex
    have hd : decodeWord w = .error (.invalidMode (op.paramCount + 1)) :=
      decodeWord_of_excess_digit hop (fun j hj hl => mod_cast hok j hj hl) hex
    exact step_of_decodeWord_error hrun hread hd

/-! ### Sources and destination -/

theorem inRange_of_read {s : State} {a v : Int} (h : s.mem.read a = some v) : InRange s a :=
  (exists_read_iff_inRange s a).mp ⟨v, h⟩

theorem resolves_position {s : State} {raw v : Int} (h : s.mem.read raw = some v) : Resolves s .position raw v :=
  .inr ⟨rfl, h⟩

/-- After a writing instruction its destination reads the result, which `ResultWord` computes in the state before. -/
theorem exec_dest_reads_resultWord {s : State} {i : Instr} {d v : Int} (hd : destOf i = some d) (hr : InRange s d)
    (hv : ResultWord s i v) : ∃ t, exec i s = .next t ∧ t.mem.read d = some v := by
  obtain ⟨t, ht, ⟨-, hread, -⟩, -, -⟩ := exec_of_resultWord hd hr hv
  exact ⟨t, ht, hread⟩

/-- Settles O30: the result word is computed from the operands in the state before the write, whether or not the
destination is the address of one of them. -/
theorem sourcesAreReadBeforeTheWrite : Obligations.SourcesAreReadBeforeTheWrite := by
  intro m3 p x s hread
  have hp : InRange s p := inRange_of_read hread
  have hx : Resolves s .position p x := resolves_position hread
  refine ⟨fun hf => exec_dest_reads_resultWord rfl hp ⟨x, x, hx, hx, rfl, hf⟩,
    fun hf => exec_dest_reads_resultWord rfl hp ⟨x, x, hx, hx, rfl, hf⟩,
    fun m q y hy => ⟨?_, ?_, ?_, ?_, fun hf => ⟨?_, ?_⟩, fun hf => ⟨?_, ?_⟩⟩⟩
  · exact exec_dest_reads_resultWord rfl hp ⟨x, y, hx, hy, rfl⟩
  · exact exec_dest_reads_resultWord rfl hp ⟨y, x, hy, hx, rfl⟩
  · exact exec_dest_reads_resultWord rfl hp ⟨x, y, hx, hy, rfl⟩
  · exact exec_dest_reads_resultWord rfl hp ⟨y, x, hy, hx, rfl⟩
  · exact exec_dest_reads_resultWord rfl hp ⟨x, y, hx, hy, rfl, hf⟩
  · exact exec_dest_reads_resultWord rfl hp ⟨y, x, hy, hx, add_comm x y, hf⟩
  · exact exec_dest_reads_resultWord rfl hp ⟨x, y, hx, hy, rfl, hf⟩
  · exact exec_dest_reads_resultWord rfl hp ⟨y, x, hy, hx, mul_comm x y, hf⟩

/-! ### The next instruction pointer -/

theorem AluEffect.ip_eq {s t : State} {i : Instr} (h : AluEffect s i t) : t.ip = s.ip + 4 := by
  obtain ⟨d, r, m, -, -, rfl, -⟩ := h
  simp [add_assoc]

/-- The pointer a conditional jump leaves, its test written as a proposition (42_jumps.md R120, R121). -/
theorem jump_ip (s : State) {b : Bool} {P : Prop} [Decidable P] (hb : b = decide P) (target : Int) :
    (if b then s.setIp target else s.advance 2).ip = if P then target else s.ip + 3 := by
  subst hb
  by_cases hP : P <;> simp [hP, add_assoc]

/-- Settles O32: each effect of `exec_cases` selects its own pointer. -/
theorem nextPointerSelection : Obligations.NextPointerSelection := by
  intro i s t hrun hexec hnf
  rcases exec_cases hexec with
    ⟨c, rfl⟩ | ⟨halu, hlen⟩ | ⟨m1, p1, v, m, rfl, -, -, -, rfl⟩ | ⟨m1, p1, rfl, -, -, rfl⟩ | ⟨m1, p1, v, rfl, -, rfl⟩ |
    ⟨m1, m2, p1, p2, c, v, rfl, hc, hv, rfl⟩ | ⟨m1, m2, p1, p2, c, v, rfl, hc, hv, rfl⟩ | ⟨rfl, rfl⟩
  · -- A fault is excluded by the hypothesis.
    exact absurd rfl hnf
  · -- An ALU instruction: the only ones with three parameters.
    cases i with
    | add | mult | lessThan | equals => exact halu.ip_eq
    | store | output | jumpIfTrue | jumpIfFalse | halt => simp [Instr.params] at hlen
  · -- STORE takes a value; the core is still running.
    simp [hrun, add_assoc]
  · -- STORE waits.
    simp
  · -- OUTPUT.
    simp [add_assoc]
  · -- JUMP-IF-TRUE.
    exact ⟨c, v, hc, hv, jump_ip s rfl v⟩
  · -- JUMP-IF-FALSE.
    exact ⟨c, v, hc, hv, jump_ip s rfl v⟩
  · -- HALT.
    rfl

end Machine

end Sys2Proof

end

section
/-! SUPPORT. The proofs of the statements on WordOverflow, on the input wait, on precise faults and on the fault record
(60_exceptions.md). -/

namespace Sys2Proof.Machine

/-! ### Steps that are not taken, and the record under the host's moves -/

theorem step_of_faulted {s : State} (h : s.run = .faulted) : step s = .fault .alreadyFaulted := by
  simp [step, h]

theorem step_of_waitInput {s : State} (h : s.run = .waitInput) : step s = .fault .waitingForInput := by
  simp [step, h]

theorem State.appendInput_run_of_faulted {s : State} (v : Int) (h : s.run = .faulted) :
    (s.appendInput v).run = .faulted := by
  simp [State.appendInput, h]

/-- A reset that is not refused leaves the boot state (70_reset_and_hazards.md R180, R182). -/
theorem boot_eq_next {c : Config} {image input : List Int} {t : State} (h : boot c image input = .next t) :
    t = bootState c image input := by
  unfold boot at h
  split at h
  · split at h
    · split at h
      · exact (Host.Outcome.next.inj h).symm
      · cases h
    · cases h
  · cases h

/-- Settles O38: an appended value touches neither the run state FAULTED nor the record, and a reset that is not refused
leaves the boot state. -/
theorem faultRecordIsSticky : Obligations.FaultRecordIsSticky := by
  intro s t m hf
  refine ⟨step_of_faulted hf, fun h => ?_⟩
  cases m with
  | append v =>
    obtain rfl := Host.Outcome.next.inj h
    exact ⟨State.appendInput_run_of_faulted v hf, rfl⟩
  | reset image input =>
    obtain rfl := boot_eq_next h
    exact ⟨rfl, rfl⟩

/-! ### Precise faults -/

theorem AluEffect.run_eq {s t : State} {i : Instr} (h : AluEffect s i t) : t.run = s.run := by
  obtain ⟨d, r, m, -, -, rfl, -⟩ := h
  rfl

/-- An instruction that leads a core into FAULTED has entered the fault, with its own word recorded, and done nothing
else: no completed effect sets that run state. -/
theorem exec_faulted {i : Instr} {s t : State} (h : exec i s = .next t) (hs : s.run ≠ .faulted)
    (ht : t.run = .faulted) : ∃ c, t = enterFault c (encodeWord i) s := by
  rcases exec_cases h with
    hc | ⟨halu, -⟩ | ⟨m1, p1, v, m, -, -, -, -, rfl⟩ | ⟨m1, p1, -, -, -, rfl⟩ | ⟨m1, p1, v, -, -, rfl⟩ |
    ⟨m1, m2, p1, p2, c, v, -, -, -, rfl⟩ | ⟨m1, m2, p1, p2, c, v, -, -, -, rfl⟩ | ⟨-, rfl⟩
  · exact hc
  · -- An ALU instruction keeps the run state.
    exact absurd (halu.run_eq ▸ ht) hs
  · -- STORE takes a value.
    exact absurd ht hs
  · -- STORE waits.
    cases ht
  · -- OUTPUT.
    exact absurd ht hs
  · -- JUMP-IF-TRUE, fired or not.
    split at ht <;> exact absurd ht hs
  · -- JUMP-IF-FALSE, fired or not.
    split at ht <;> exact absurd ht hs
  · -- HALT.
    cases ht

/-- A step that leads into FAULTED is fault entry, and records the word at the pointer, or 0 where there is none
(60_exceptions.md R156). -/
theorem step_faulted {s t : State} (h : step s = .next t) (ht : t.run = .faulted) :
    ∃ c, t = enterFault c ((s.mem.read s.ip).getD 0) s := by
  obtain ⟨hrun, ⟨c, w, hf, rfl⟩ | ⟨i, hf, he⟩⟩ := step_cases h
  · exact ⟨c, by rw [fetchInstr_error hf]⟩
  · obtain ⟨c, rfl⟩ := exec_faulted he (by simp [hrun]) ht
    exact ⟨c, by rw [read_of_fetchInstr hf, Option.getD_some]⟩

/-- Settles O37: the step is fault entry, whose record holds the numbers of its cause. -/
theorem faultsArePrecise : Obligations.FaultsArePrecise := by
  intro s t h ht
  obtain ⟨c, rfl⟩ := step_faulted h ht
  obtain ⟨hlow, hhigh, hkind, hzero⟩ := c.code_bounds
  exact ⟨enterFault_eq_faultedWith c _ s, hlow, hhigh, hkind, hzero, step_of_faulted ht⟩

/-! ### WordOverflow -/

/-- The range of a finite word width (40_arithmetic.md R102). -/
theorem fits_iff_of_finite {c : Config} {bits : Nat} (h : c.width = .finite bits) (v : Int) :
    fits c v = true ↔ -(2 : Int) ^ (bits - 1) ≤ v ∧ v ≤ (2 : Int) ^ (bits - 1) - 1 := by
  simp [fits, h]

/-- The ALU's range check refuses a result that is no Word, and writes nothing (40_arithmetic.md R102). -/
theorem commitResult_of_not_fits {s : State} {r : Int} (word addr : Int) (n : Nat) (h : fits s.config r = false) :
    commitResult word addr r n s = .next (faultedWith s 5 0 word r) := by
  simp [commitResult, h, raise, enterFault_eq_faultedWith, Cause.code, Cause.kind, Cause.addr]

/-- STORE refuses a next input value that is no Word, and neither writes nor consumes it (60_exceptions.md R155). -/
theorem exec_store_of_not_fits {s : State} (m1 : Mode) {p1 v : Int} (hr : InRange s p1) (hp : s.inPeek = some v)
    (hf : fits s.config v = false) :
    exec (.store m1 p1) s = .next (faultedWith s 5 0 (encodeWord (.store m1 p1)) v) := by
  simp [exec, execStore, (inBounds_iff_inRange s p1).mpr hr, hp, hf, raise, enterFault_eq_faultedWith, Cause.code,
    Cause.kind, Cause.addr]

/-- Settles O25: with the operands resolved and the destination in range, the range check is what remains of ADD, MULT
and STORE. -/
theorem overflowFaultsAndWritesNothing : Obligations.OverflowFaultsAndWritesNothing := by
  intro s m1 m2 m3 p1 p2 p3 a b
  refine ⟨fits_of_unbounded, fun bits hw => fits_iff_of_finite hw, fun h1 h2 h3 => ⟨fun hf => ?_, fun hf => ?_⟩,
    exec_store_of_not_fits m1⟩
  · simp only [exec, execAdd, withOperands_of_resolves _ m3 _ h1 h2 h3, commitResult_of_not_fits _ p3 3 hf]
  · simp only [exec, execMult, withOperands_of_resolves _ m3 _ h1 h2 h3, commitResult_of_not_fits _ p3 3 hf]

/-! ### The input wait -/

/-- Where the words at the pointer are those of `i`, phases 1 to 3 answer `i` (30_encoding.md R80). -/
theorem fetchInstr_of_reads {s : State} {i : Instr} (hw : s.mem.read s.ip = some (encodeWord i))
    (hps : ∀ j, j < i.params.length → s.mem.read (s.ip + (1 + j : Nat)) = i.params[j]?) : fetchInstr s = .ok i := by
  obtain ⟨h, hdec, hcount, hinstr⟩ := decodeWord_encodeWord i
  simp [fetchInstr, hw, hdec, hcount, readParams_of_reads rfl hps, hinstr]

theorem fetchInstr_store {s : State} {m1 : Mode} {p1 : Int} (hw : s.mem.read s.ip = some (encodeWord (.store m1 p1)))
    (hp : s.mem.read (s.ip + 1) = some p1) : fetchInstr s = .ok (.store m1 p1) := by
  refine fetchInstr_of_reads hw fun j hj => ?_
  obtain rfl : j = 0 := by simpa [Instr.params] using hj
  exact hp

/-- STORE on an empty channel in interactive mode waits (60_exceptions.md R162). -/
theorem exec_store_waits {s : State} (m1 : Mode) {p1 : Int} (hr : InRange s p1) (hp : s.inPeek = none)
    (hi : s.config.inputMode = .interactive) : exec (.store m1 p1) s = .next (s.setRun .waitInput) := by
  simp [exec, execStore, (inBounds_iff_inRange s p1).mpr hr, hp, hi]

/-- STORE with a Word at the cursor writes it, takes it and advances by 2 (41_io.md R110). -/
theorem exec_store_takes {s : State} (m1 : Mode) {p1 v : Int} (hr : InRange s p1) (hp : s.inPeek = some v)
    (hf : fits s.config v = true) :
    ∃ m, s.mem.write p1 v = some m ∧ exec (.store m1 p1) s = .next ((s.inPop.setMem m).advance 1) := by
  obtain ⟨m, hm, hc⟩ := commitWrite_inRange (s := s.inPop) (encodeWord (.store m1 p1)) v 1 hr
  exact ⟨m, hm, by simp [exec, execStore, (inBounds_iff_inRange s p1).mpr hr, hp, hf, hc]⟩

/-- A value appended to a channel whose cursor is at the end is the next value (41_io.md R112). -/
theorem State.appendInput_inPeek_of_atEnd {s : State} (v : Int) (h : s.cursor = s.inq.length) :
    (s.appendInput v).inPeek = some v := by
  simp [State.inPeek, h]

/-- Appended input lifts the wait of a core that was running, and leaves it as it was but for the channel
(60_exceptions.md R162). -/
theorem State.appendInput_of_waiting {s : State} (v : Int) (h : s.run = .running) :
    (s.setRun .waitInput).appendInput v = s.appendInput v := by
  simp [State.appendInput, State.setRun, h]

theorem State.appendInput_of_running {s : State} (v : Int) (h : s.run = .running) :
    s.appendInput v = { s with inq := s.inq ++ [v] } := by
  simp [State.appendInput, h]

/-- Settles O27: the memory and the pointer are untouched by the wait and by the appended value, so the same STORE is
fetched twice: on the empty channel, and with the value at the cursor. -/
theorem waitIsLiftedByAppendedInput : Obligations.WaitIsLiftedByAppendedInput := by
  intro s m1 p1 v hrun hmode hcur hword hparam hr hfit
  have hfetch : fetchInstr s = .ok (.store m1 p1) := fetchInstr_store hword hparam
  have hwait : step s = .next (s.setRun .waitInput) := by
    rw [step_of_fetchInstr hrun hfetch, exec_store_waits m1 hr (s.inPeek_eq_none_iff.mpr hcur.ge) hmode]
  have hfetch' : fetchInstr (s.appendInput v) = .ok (.store m1 p1) := fetchInstr_store hword hparam
  obtain ⟨m, hm, hexec⟩ :=
    exec_store_takes (s := s.appendInput v) m1 hr (State.appendInput_inPeek_of_atEnd v hcur) hfit
  have hresume : step (s.appendInput v) = .next (((s.appendInput v).inPop.setMem m).advance 1) := by
    rw [step_of_fetchInstr (State.appendInput_run_of_running v hrun) hfetch', hexec]
  have hlift : (s.setRun .waitInput).appendInput v = s.appendInput v := State.appendInput_of_waiting v hrun
  refine ⟨s.setRun .waitInput, ((s.appendInput v).inPop.setMem m).advance 1, hwait, rfl, step_of_waitInput rfl,
    hlift.trans (State.appendInput_of_running v hrun), hlift ▸ hresume, writesOnly_of_write hm rfl, ?_⟩
  rw [State.appendInput_of_running v hrun]
  simp [State.inPop, State.setMem, State.advance, State.setIp, add_assoc]

end Sys2Proof.Machine

end

section
/-! SUPPORT. The proofs of the statements on the encoding: decoder and encoder as inverses, the legal words, the words'
width, and the assembler's line (30_encoding.md). -/

namespace Sys2Proof

/-! ### Decoder and encoder -/

/-- Settles O1: the encoder's word decodes to a head that makes the instruction again from its own parameter words, and
the decoder takes exactly those words from the front. -/
theorem decodeOfEncodeIsTheInstruction : Obligations.DecodeOfEncodeIsTheInstruction := by
  intro i rest
  obtain ⟨h, hdec, hcount, hinstr⟩ := decodeWord_encodeWord i
  simp [encode, decode, hdec, hcount, hinstr]

/-- What a sequence of words that decodes is: a word that decodes, and at least as many words after it as its opcode has
parameters. -/
theorem decode_eq_ok {ws rest : List Int} {i : Instr} (hd : decode ws = .ok (i, rest)) :
    ∃ w h ps, decodeWord w = .ok h ∧ ps.length = h.op.paramCount ∧ i = h.instr ps ∧ ws = w :: (ps ++ rest) := by
  unfold decode at hd
  split at hd
  · cases hd
  next w tail =>
  split at hd
  · cases hd
  next h hdec =>
  split at hd
  · cases hd
  next hlen =>
  obtain ⟨rfl, rfl⟩ := Prod.mk.inj (Except.ok.inj hd)
  exact ⟨w, h, tail.take h.op.paramCount, hdec, List.length_take_of_le (not_lt.mp hlen), rfl, by simp⟩

/-- Settles O2: the instruction made of a decoded word encodes to that word and has the parameter words it was given. -/
theorem decodedWordsAreTheEncoding : Obligations.DecodedWordsAreTheEncoding := by
  intro ws rest i hd
  obtain ⟨w, h, ps, hdec, hlen, rfl, rfl⟩ := decode_eq_ok hd
  rw [encode, encodeWord_headInstr hdec, params_headInstr hlen, List.cons_append]

/-! ### The legal words -/

theorem encodeWord_mem_legalWords (i : Instr) : encodeWord i ∈ legalWords := by
  cases i with
  | add => exact (Laws.LegalWord.add ..).1
  | mult => exact (Laws.LegalWord.mult ..).1
  | store => exact (Laws.LegalWord.store ..).1
  | output => exact (Laws.LegalWord.output ..).1
  | jumpIfTrue => exact (Laws.LegalWord.jumpIfTrue ..).1
  | jumpIfFalse => exact (Laws.LegalWord.jumpIfFalse ..).1
  | lessThan => exact (Laws.LegalWord.lessThan ..).1
  | equals => exact (Laws.LegalWord.equals ..).1
  | halt => exact Laws.LegalWord.halt.1

theorem decodeWord_isOk_of_legal : ∀ w ∈ legalWords, (decodeWord w).isOk = true := by decide

/-- Settles O3: a word that decodes is the word of an instruction, and each of the 45 listed words decodes. -/
theorem exactlyTheLegalWordsDecode : Obligations.ExactlyTheLegalWordsDecode := by
  refine ⟨by decide, by decide, fun w => ⟨fun ⟨h, hd⟩ => ?_, fun hw => ?_⟩⟩
  · exact encodeWord_headInstr hd [] ▸ encodeWord_mem_legalWords (h.instr [])
  · have hok := decodeWord_isOk_of_legal w hw
    cases hd : decodeWord w with
    | ok h => exact ⟨h, rfl⟩
    | error e => simp [hd, Except.isOk, Except.toBool] at hok

/-- Settles O6: an instruction word is a value of 16 signed bits, so only the parameter words can fail to fit. -/
theorem encodedWordsFitExactlyWhenWellFormed : Obligations.EncodedWordsFitExactlyWhenWellFormed := by
  intro c i hc
  obtain ⟨hlow, hhigh⟩ := encodeWord_bounds i
  have hword : Machine.fits c (encodeWord i) = true := Machine.fits_of_small hc (by omega) (by omega)
  simp [encode, Instr.wf, hword]

/-- Settles O5: the decoder evaluated on each of the nine sequences. -/
theorem sampleWordsDecode : Obligations.SampleWordsDecode := by
  refine ⟨?_, ?_, ?_, ?_, ?_, ?_, ?_, ?_, ?_⟩ <;> decide

/-! ### The assembler's line -/

/-- A head has no mode where its opcode has no parameter: such a mode is the absent digit's, `position`
(30_encoding.md R62). -/
def Head.HasNoSpareMode (h : Head) : Prop :=
  (h.op.paramCount < 1 → h.m1 = .position) ∧ (h.op.paramCount < 2 → h.m2 = .position) ∧
    (h.op.paramCount < 3 → h.m3 = .position)

/-- The instruction word of a head's instruction is made of its opcode number and its three mode digits
(30_encoding.md R73). -/
theorem encodeWord_of_hasNoSpareMode {h : Head} (hh : h.HasNoSpareMode) (ps : List Int) :
    encodeWord (h.instr ps) = wordOf h.op.number h.m1.digit h.m2.digit h.m3.digit := by
  obtain ⟨op, m1, m2, m3⟩ := h
  obtain ⟨h1, h2, h3⟩ := hh
  cases op <;> simp only [Opcode.paramCount] at h1 h2 h3
  case add | mult | lessThan | equals => rfl
  case jumpIfTrue | jumpIfFalse => rw [h3 (by decide)]; rfl
  case store | output => rw [h2 (by decide), h3 (by decide)]; rfl
  case halt => rw [h1 (by decide), h2 (by decide), h3 (by decide)]; rfl

namespace Asm

/-- The mode of operand `k`, counted from 0; `position` where there is no such operand. -/
def modeAt (os : List Operand) (k : Nat) : Mode := (os[k]?.map Operand.mode).getD .position

theorem digit_modeAt (os : List Operand) (k : Nat) : (modeAt os k).digit = digitOf os k := by
  cases h : os[k]? <;> simp [modeAt, digitOf, h, Mode.digit]

theorem modeAt_of_length_le {os : List Operand} {k : Nat} (h : os.length ≤ k) : modeAt os k = .position := by
  simp [modeAt, List.getElem?_eq_none h]

theorem getElem?_mode {os : List Operand} {k : Nat} (h : k < os.length) :
    os[k]?.map Operand.mode = some (modeAt os k) := by
  simp [modeAt, List.getElem?_eq_getElem h]

theorem length_of_valuesOf {table : List (String × Nat)} {os : List Operand} {vs : List Int}
    (h : valuesOf table os = some vs) : vs.length = os.length := by
  induction os generalizing vs with
  | nil => simp [← Option.some.inj h]
  | cons o os ih =>
    unfold valuesOf at h
    split at h
    · next hvs => simp [← Option.some.inj h, ih hvs]
    · cases h

/-- Settles O7: the head is the opcode with the operands' modes; its encoded word is made of the same number and digits
as the assembler's, and its parameter words are the operands' values. -/
theorem assembledLineIsTheEncoding : Obligations.AssembledLineIsTheEncoding := by
  intro table label op os vs hlen hvs
  let h : Head := { op := op, m1 := modeAt os 0, m2 := modeAt os 1, m3 := modeAt os 2 }
  have hspare : h.HasNoSpareMode :=
    ⟨fun hn => modeAt_of_length_le (Nat.le_of_lt_succ (hlen ▸ hn)),
      fun hn => modeAt_of_length_le (Nat.le_of_lt_succ (hlen ▸ hn)),
      fun hn => modeAt_of_length_le (Nat.le_of_lt_succ (hlen ▸ hn))⟩
  have hparams : (h.instr vs).params = vs := params_headInstr (by rw [length_of_valuesOf hvs, hlen])
  refine ⟨h, rfl, fun k hk => ?_, ?_⟩
  · rw [getElem?_mode (hlen ▸ hk)]
    have hk3 : k < 3 := lt_of_lt_of_le hk (by cases op <;> decide)
    interval_cases k <;> rfl
  · simp [assembleLine, hlen, hvs, encode, encodeWord_of_hasNoSpareMode hspare, hparams, h, digit_modeAt]

end Asm

end Sys2Proof

end

section
/-! SUPPORT. The proofs of the statements on a step up to the instruction's own phases, and on what each instruction
does when it completes and when it faults (30_encoding.md section 6, 40_arithmetic.md to 44_halt.md,
60_exceptions.md sections 1 and 2). -/

namespace Sys2Proof.Machine

/-! ### The step up to the instruction's own phases -/

/-- Settles O8: the words at the pointer are the instruction word and the parameter words the fetch reads. -/
theorem stepRunsTheDecodedInstruction : Obligations.StepRunsTheDecodedInstruction := by
  intro s i hrun hreads
  have hword : s.mem.read s.ip = some (encodeWord i) := by simpa [encode] using hreads 0 (by simp [encode])
  have hparams (j : Nat) (hj : j < i.params.length) : s.mem.read (s.ip + (1 + j : Nat)) = i.params[j]? := by
    simpa [encode, Nat.add_comm] using hreads (j + 1) (by simpa [encode] using hj)
  exact step_of_fetchInstr hrun (fetchInstr_of_reads hword hparams)

/-- A pointer out of range faults at the fetch, with no instruction word (60_exceptions.md R152). -/
theorem step_of_ip_outOfRange {s : State} (hrun : s.run = .running) (h : ¬ InRange s s.ip) :
    step s = .next (faultedWith s 2 0 0 s.ip) :=
  step_of_fetch_error (c := .outOfBounds .fetch s.ip) hrun (by simp [fetchInstr, Memory.read_eq_none_iff.mpr h])

/-- Settles O9: `step_of_ip_outOfRange` in the statement's words. -/
theorem fetchOutsideMemoryFaults : Obligations.FetchOutsideMemoryFaults :=
  fun _ hrun h => step_of_ip_outOfRange hrun h

/-- Settles O12: the parameter fetch stops at the first parameter word that is missing. -/
theorem missingParameterWordFaults : Obligations.MissingParameterWordFaults := by
  intro s w h k hrun hread hdec hk hkn hok hbad
  have hps : readParams s.mem s.ip h.op.paramCount 1 = .error (.outOfBounds .param (s.ip + k)) :=
    readParams_missing hk (by omega) hbad hok
  exact step_of_fetch_error (c := .outOfBounds .param (s.ip + k)) hrun (by simp [fetchInstr, hread, hdec, hps])

theorem step_of_halted {s : State} (h : s.run = .halted) : step s = .fault .alreadyHalted := by
  simp [step, h]

/-- Settles O13: one lemma for each of the three run states. -/
theorem noStepUnlessRunning : Obligations.NoStepUnlessRunning :=
  fun _ => ⟨step_of_halted, step_of_faulted, step_of_waitInput⟩

/-! ### Instructions that complete -/

/-- An instruction with three parameters can only fault or have the ALU's effect. -/
theorem exec_alu_cases {i : Instr} {s t : State} (hl : i.params.length = 3) (h : exec i s = .next t) :
    (∃ c, t = enterFault c (encodeWord i) s) ∨ AluEffect s i t := by
  rcases exec_cases h with
    hc | ⟨halu, -⟩ | ⟨_, _, _, _, rfl, -⟩ | ⟨_, _, rfl, -⟩ | ⟨_, _, _, rfl, -⟩ | ⟨_, _, _, _, _, _, rfl, -⟩ |
    ⟨_, _, _, _, _, _, rfl, -⟩ | ⟨rfl, -⟩
  · exact .inl hc
  · exact .inr halu
  all_goals simp [Instr.params] at hl

/-- An ALU instruction with its result word at hand and its destination in range completes: the pointer advances by 4,
which no fault does, so the effect is the ALU's. -/
theorem exec_alu_of_resultWord {s : State} {i : Instr} {d v : Int} (hl : i.params.length = 3) (hd : destOf i = some d)
    (hr : InRange s d) (hv : ResultWord s i v) :
    ∃ t, exec i s = .next t ∧ WritesOnly s t d v ∧ t = { s with mem := t.mem, ip := s.ip + 4 } := by
  obtain ⟨t, ht, hw, -, hip⟩ := exec_of_resultWord hd hr hv
  refine ⟨t, ht, hw, ?_⟩
  rcases exec_alu_cases hl ht with ⟨c, rfl⟩ | ⟨_, _, m, -, -, rfl, -⟩
  · rw [enterFault_ip] at hip
    omega
  · simp [State.advance, State.setIp, State.setMem, add_assoc]

/-- Settles O14: the result word of ADD is the sum. -/
theorem addWritesTheSum : Obligations.AddWritesTheSum :=
  fun _ _ _ _ _ _ a b _ h1 h2 h3 hf => exec_alu_of_resultWord rfl rfl h3 ⟨a, b, h1, h2, rfl, hf⟩

/-- Settles O15: the result word of MULT is the product. -/
theorem multWritesTheProduct : Obligations.MultWritesTheProduct :=
  fun _ _ _ _ _ _ a b _ h1 h2 h3 hf => exec_alu_of_resultWord rfl rfl h3 ⟨a, b, h1, h2, rfl, hf⟩

/-- Settles O16: the result word of LESS-THAN is the comparison's 1 or 0. -/
theorem lessThanWritesTheComparison : Obligations.LessThanWritesTheComparison :=
  fun _ _ _ _ _ _ a b _ h1 h2 h3 => exec_alu_of_resultWord rfl rfl h3 ⟨a, b, h1, h2, rfl⟩

/-- Settles O17: the result word of EQUALS is the comparison's 1 or 0. -/
theorem equalsWritesTheComparison : Obligations.EqualsWritesTheComparison :=
  fun _ _ _ _ _ _ a b _ h1 h2 h3 => exec_alu_of_resultWord rfl rfl h3 ⟨a, b, h1, h2, rfl⟩

/-- Settles O18: STORE writes the value at the cursor and moves the cursor and the pointer. -/
theorem storeTakesTheNextInput : Obligations.StoreTakesTheNextInput := by
  intro m1 p1 v s hr hp hf
  obtain ⟨m, hm, he⟩ := exec_store_takes m1 hr hp hf
  exact ⟨_, he, writesOnly_of_write hm rfl, by
    simp [State.advance, State.setIp, State.setMem, State.inPop, add_assoc]⟩

/-- Settles O19: OUTPUT's operand is the one the address translator answers. -/
theorem outputEmitsTheOperand : Obligations.OutputEmitsTheOperand := by
  intro m1 p1 v s hv
  simp [exec, execOutput, operand_eq_ok_iff.mpr hv, State.outPush, State.advance, State.setIp, add_assoc]

/-- A conditional jump whose operands resolve selects the pointer by its test, written as a proposition
(42_jumps.md R120 to R122). -/
theorem jumpWhen_of_resolves {cond : Int → Bool} {s : State} {m1 m2 : Mode} {p1 p2 c target : Int} {P : Prop}
    [Decidable P] (word : Int) (hcond : cond c = decide P) (hc : Resolves s m1 p1 c) (ht : Resolves s m2 p2 target) :
    jumpWhen cond word m1 m2 p1 p2 s = .next { s with ip := if P then target else s.ip + 3 } := by
  rw [jumpWhen, operands2_of_resolves hc ht]
  by_cases hP : P <;> simp [hcond, hP, State.advance, State.setIp, add_assoc]

/-- Settles O20: the condition of JUMP-IF-TRUE is that the value is not 0. -/
theorem jumpIfTrueSelectsThePointer : Obligations.JumpIfTrueSelectsThePointer :=
  fun _ _ _ _ _ _ _ hc ht => jumpWhen_of_resolves _ rfl hc ht

/-- Settles O21: the condition of JUMP-IF-FALSE is that the value is 0. -/
theorem jumpIfFalseSelectsThePointer : Obligations.JumpIfFalseSelectsThePointer :=
  fun _ _ _ _ _ _ _ hc ht => jumpWhen_of_resolves _ rfl hc ht

/-- Settles O22: HALT sets the run state and nothing else, by its definition. -/
theorem haltEndsTheRun : Obligations.HaltEndsTheRun :=
  fun _ => rfl

/-! ### Instructions that fault -/

/-- The first of two sources that is in position mode and out of range is the fault of phase 4 (20_memory.md R48). -/
theorem operands2_of_badSource {s : State} {m1 m2 : Mode} {p1 p2 raw : Int} {before after : List (Mode × Int)}
    (hsrc : [(m1, p1), (m2, p2)] = before ++ (.position, raw) :: after)
    (hok : ∀ x ∈ before, x.1 = .immediate ∨ InRange s x.2) (hbad : ¬ InRange s raw) :
    operands2 m1 m2 p1 p2 s.mem = .error (.outOfBounds .operand raw) := by
  rcases before with _ | ⟨x, _ | ⟨y, before⟩⟩
  · -- Source 1.
    obtain ⟨⟨rfl, rfl⟩, -⟩ : (m1 = .position ∧ p1 = raw) ∧ _ := by simpa using hsrc
    simp [operands2, operand_outOfRange hbad]
  · -- Source 2, after a source 1 that resolves.
    obtain ⟨rfl, ⟨rfl, rfl⟩, -⟩ : (m1, p1) = x ∧ (m2 = .position ∧ p2 = raw) ∧ _ := by simpa using hsrc
    obtain ⟨a, ha⟩ := exists_resolves (hok _ (List.mem_singleton_self _))
    simp [operands2, operand_eq_ok_iff.mpr ha, operand_outOfRange hbad]
  · -- There is no third source.
    simp at hsrc

theorem raise_operand (s : State) (word raw : Int) :
    raise (.outOfBounds .operand raw) word s = .next (faultedWith s 2 2 word raw) := rfl

theorem raise_dest (s : State) (word d : Int) :
    raise (.outOfBounds .dest d) word s = .next (faultedWith s 2 3 word d) := rfl

/-- Settles O23: phase 4 comes before everything else an instruction does. -/
theorem firstBadSourceFaults : Obligations.FirstBadSourceFaults := by
  intro i s before after raw hsrc hok hbad
  cases i with
  | add | mult | lessThan | equals =>
    simp only [exec, execAdd, execMult, execLessThan, execEquals, withOperands, operands2_of_badSource hsrc hok hbad,
      raise_operand]
  | jumpIfTrue | jumpIfFalse =>
    simp only [exec, execJumpIfTrue, execJumpIfFalse, jumpWhen, operands2_of_badSource hsrc hok hbad, raise_operand]
  | output m1 p1 =>
    -- The one source of OUTPUT is the bad one.
    obtain ⟨rfl, ⟨rfl, rfl⟩, -⟩ : before = [] ∧ (.position = m1 ∧ raw = p1) ∧ after = [] := by
      simpa [sourcesOf, List.cons_eq_append_iff] using hsrc
    simp only [exec, execOutput, operand_outOfRange hbad, raise_operand]
  | store | halt => simp [sourcesOf] at hsrc

/-- With the sources resolved, a destination out of range is the fault of phase 5 (60_exceptions.md section 2). -/
theorem withOperands_of_badDestination {s : State} {m1 m2 : Mode} {p1 p2 d : Int} (word : Int) (m3 : Mode)
    (act : Int → Int → Int → Host.Outcome State Fault Refusal)
    (hok : ∀ x ∈ [(m1, p1), (m2, p2)], x.1 = .immediate ∨ InRange s x.2) (hbad : ¬ InRange s d) :
    withOperands word m1 m2 m3 p1 p2 d s act = .next (faultedWith s 2 3 word d) := by
  obtain ⟨a, ha⟩ := exists_resolves (hok (m1, p1) (by simp))
  obtain ⟨b, hb⟩ := exists_resolves (hok (m2, p2) (by simp))
  simp [withOperands, operands2_of_resolves ha hb, inBounds_iff_inRange, hbad, raise_dest]

/-- Settles O24: phase 5 comes before the rule of an ALU instruction, and is the first thing STORE does. -/
theorem badDestinationFaults : Obligations.BadDestinationFaults := by
  intro i s d hd hok hbad
  cases i with
  | add | mult | lessThan | equals =>
    obtain rfl := Option.some.inj hd
    simp only [destination_eq] at hbad ⊢
    simp only [exec, execAdd, execMult, execLessThan, execEquals, withOperands_of_badDestination _ _ _ hok hbad]
  | store =>
    obtain rfl := Option.some.inj hd
    simp only [destination_eq] at hbad ⊢
    simp [exec, execStore, inBounds_iff_inRange, hbad, raise_dest]
  | output | jumpIfTrue | jumpIfFalse | halt => cases hd

/-- STORE on an empty channel in batch mode faults InputExhausted (60_exceptions.md R153). -/
theorem exec_store_exhausted {s : State} (m1 : Mode) {p1 : Int} (hr : InRange s p1) (hp : s.inPeek = none)
    (hb : s.config.inputMode = .batch) :
    exec (.store m1 p1) s = .next (faultedWith s 3 0 (encodeWord (.store m1 p1)) 0) := by
  simp [exec, execStore, (inBounds_iff_inRange s p1).mpr hr, hp, hb, raise, enterFault_eq_faultedWith, Cause.code,
    Cause.kind, Cause.addr]

/-- Settles O26: a channel whose cursor is not before the end is empty, and the input mode decides what STORE does. -/
theorem emptyChannelFaultsOrWaits : Obligations.EmptyChannelFaultsOrWaits := by
  intro s m1 p1 hr hcur
  have hp : s.inPeek = none := s.inPeek_eq_none_iff.mpr hcur
  exact ⟨exec_store_exhausted m1 hr hp, exec_store_waits m1 hr hp⟩

/-- Settles O28: the jump loads the target unchecked, and the next step fetches there. -/
theorem jumpOutOfRangeFaultsAtTheNextFetch : Obligations.JumpOutOfRangeFaultsAtTheNextFetch := by
  intro m1 m2 p1 p2 c target s hrun hc ht hbad
  have hnext : step { s with ip := target } = .next (faultedWith { s with ip := target } 2 0 0 target) :=
    step_of_ip_outOfRange hrun hbad
  refine ⟨fun h => ⟨_, ?_, rfl, hnext⟩, fun h => ⟨_, ?_, rfl, hnext⟩⟩
  · rw [jumpIfTrueSelectsThePointer m1 m2 p1 p2 c target s hc ht, if_pos h]
  · rw [jumpIfFalseSelectsThePointer m1 m2 p1 p2 c target s hc ht, if_pos h]

end Sys2Proof.Machine

end

section
/-! SUPPORT. The proofs of the statements on the destination's mode, on the fetch after a write, on the frames of the
instructions, and on how a run ends and waits (20_memory.md section 6, 30_encoding.md section 3, 41_io.md to
44_halt.md). -/

namespace Sys2Proof.Machine

/-! ### The destination's mode -/

/-- The instruction word `w` has no effect on the outcome `o w` but to be recorded by a fault. -/
def WordIsOnlyRecorded (s : State) (o : Int → Host.Outcome State Fault Refusal) : Prop :=
  (∃ c, ∀ w, o w = raise c w s) ∨ ∃ r, ∀ w, o w = r

theorem commitWrite_wordIsOnlyRecorded (s : State) (d v : Int) (n : Nat) :
    WordIsOnlyRecorded s fun w => commitWrite w d v n s := by
  cases h : s.mem.write d v with
  | none => exact .inl ⟨.outOfBounds .dest d, fun w => by simp only [commitWrite, h]⟩
  | some m => exact .inr ⟨.next ((s.setMem m).advance n), fun w => by simp only [commitWrite, h]⟩

theorem commitResult_wordIsOnlyRecorded (s : State) (d r : Int) (n : Nat) :
    WordIsOnlyRecorded s fun w => commitResult w d r n s := by
  by_cases h : fits s.config r = true
  · simpa only [commitResult, if_pos h] using commitWrite_wordIsOnlyRecorded s d r n
  · exact .inl ⟨_, fun w => if_neg h⟩

theorem withOperands_wordIsOnlyRecorded {s : State} {act : Int → Int → Int → Int → Host.Outcome State Fault Refusal}
    (m1 m2 m3 : Mode) (p1 p2 p3 : Int) (hact : ∀ a b d, WordIsOnlyRecorded s fun w => act w a b d) :
    WordIsOnlyRecorded s fun w => withOperands w m1 m2 m3 p1 p2 p3 s (act w) := by
  cases h : operands2 m1 m2 p1 p2 s.mem with
  | error c => exact .inl ⟨c, fun w => by simp only [withOperands, h]⟩
  | ok ab =>
    by_cases hd : s.mem.inBounds p3 = true
    · simpa only [withOperands, h, destination_eq, if_pos hd] using hact ab.1 ab.2 p3
    · exact .inl ⟨.outOfBounds .dest p3, fun w => by simp only [withOperands, h, destination_eq, if_neg hd]⟩

/-- Two instructions end in the same outcome, but that a fault records each one's own instruction word. -/
def SameButWord (s : State) (i j : Instr) : Prop :=
  (∃ code kind addr, exec i s = .next (faultedWith s code kind (encodeWord i) addr) ∧
    exec j s = .next (faultedWith s code kind (encodeWord j) addr)) ∨ exec i s = exec j s

theorem WordIsOnlyRecorded.sameButWord {s : State} {o : Int → Host.Outcome State Fault Refusal}
    (h : WordIsOnlyRecorded s o) {i j : Instr} (hi : exec i s = o (encodeWord i)) (hj : exec j s = o (encodeWord j)) :
    SameButWord s i j := by
  rcases h with ⟨c, hc⟩ | ⟨r, hr⟩
  · exact .inl ⟨c.code, c.kind, c.addr, hi.trans (hc _), hj.trans (hc _)⟩
  · exact .inr (by rw [hi, hj, hr, hr])

theorem store_sameButWord (s : State) (m m' : Mode) (p : Int) : SameButWord s (.store m p) (.store m' p) := by
  by_cases hr : InRange s p
  · cases hp : s.inPeek with
    | none =>
      cases hi : s.config.inputMode with
      | batch => exact .inl ⟨_, _, _, exec_store_exhausted m hr hp hi, exec_store_exhausted m' hr hp hi⟩
      | interactive => exact .inr ((exec_store_waits m hr hp hi).trans (exec_store_waits m' hr hp hi).symm)
    | some v =>
      cases hf : fits s.config v with
      | false => exact .inl ⟨_, _, _, exec_store_of_not_fits m hr hp hf, exec_store_of_not_fits m' hr hp hf⟩
      | true =>
        obtain ⟨x, hx, he⟩ := exec_store_takes m hr hp hf
        obtain ⟨y, hy, he'⟩ := exec_store_takes m' hr hp hf
        obtain rfl := Option.some.inj (hx.symm.trans hy)
        exact .inr (he.trans he'.symm)
  · have bad (m : Mode) := badDestinationFaults (.store m p) s p rfl (by simp [sourcesOf]) hr
    exact .inl ⟨_, _, _, bad m, bad m'⟩

/-- Settles O29: the two forms run one rule, which hands the instruction word to fault entry and to nothing else. -/
theorem destinationModeHasNoEffect : Obligations.DestinationModeHasNoEffect := by
  intro i j m1 m2 m3 m3' p1 p2 p3 s t hij hexec
  have arith (f : Int → Int → Int) :=
    withOperands_wordIsOnlyRecorded m1 m2 m3 p1 p2 p3 fun a b d => commitResult_wordIsOnlyRecorded s d (f a b) 3
  have compare (f : Int → Int → Bool) :=
    withOperands_wordIsOnlyRecorded m1 m2 m3 p1 p2 p3 fun a b d =>
      commitWrite_wordIsOnlyRecorded s d (boolWord (f a b)) 3
  have hsame : SameButWord s i j := by
    simp only [List.mem_cons, Prod.mk.injEq, List.not_mem_nil, or_false] at hij
    rcases hij with ⟨rfl, rfl⟩ | ⟨rfl, rfl⟩ | ⟨rfl, rfl⟩ | ⟨rfl, rfl⟩ | ⟨rfl, rfl⟩
    · exact (arith (· + ·)).sameButWord rfl rfl
    · exact (arith (· * ·)).sameButWord rfl rfl
    · exact (compare lessThanTest).sameButWord rfl rfl
    · exact (compare equalsTest).sameButWord rfl rfl
    · exact store_sameButWord s m3 m3' p1
  rcases hsame with ⟨code, kind, addr, hi, hj⟩ | h
  · obtain rfl := Host.Outcome.next.inj (hi.symm.trans hexec)
    exact .inr ⟨rfl, hj⟩
  · exact .inl (h ▸ hexec)

/-! ### The fetch after a write -/

/-- Settles O31: the destination reads the word written, and fetch and decode go by what the array reads. -/
theorem writeIsSeenByTheNextFetch : Obligations.WriteIsSeenByTheNextFetch := by
  intro i s d v hrun hd hr hv
  obtain ⟨t, ht, ⟨-, hread, -⟩, hrun', hip⟩ := exec_of_resultWord hd hr hv
  refine ⟨t, ht, hrun'.trans hrun, hip, fun u hu hsame => ⟨?_, fun j k hj hk hkd => ?_⟩⟩
  · -- The word at `d` as an instruction word.
    rintro rfl
    have hword : u.mem.read u.ip = some v := hsame.trans hread
    refine ⟨fun e he => step_of_decodeWord_error hu hword he, fun h ps hdec hlen hps => ?_⟩
    have hparams : readParams u.mem u.ip h.op.paramCount 1 = .ok ps :=
      readParams_of_reads hlen fun k hk => by simpa [add_assoc] using hps k hk
    exact step_of_fetchInstr hu (by simp [fetchInstr, hword, hdec, hparams])
  · -- The word at `d` as a parameter word.
    obtain ⟨w, h, ps, -, -, hps, rfl⟩ := fetchInstr_ok hj
    obtain ⟨hlen, hreads⟩ := readParams_ok hps
    rw [params_headInstr hlen] at hk ⊢
    rw [← hreads k (hlen ▸ hk), ← hread, ← hsame, ← hkd]
    simp [add_assoc]

/-! ### Frames -/

/-- Settles O33: fault entry, or one write and the advance. -/
theorem aluInstructionsFrame : Obligations.AluInstructionsFrame := by
  intro i m1 m2 m3 p1 p2 p3 s t hi hexec
  have hl : i.params.length = 3 := by
    simp only [List.mem_cons, List.not_mem_nil, or_false] at hi
    rcases hi with rfl | rfl | rfl | rfl <;> rfl
  rcases exec_alu_cases hl hexec with ⟨c, rfl⟩ | ⟨d, r, m, hd, hm, rfl, -⟩
  · exact ⟨rfl, rfl, rfl, rfl, rfl, fun _ _ _ _ => rfl, .inr rfl⟩
  · obtain ⟨-, hsize, -, hother, -⟩ := Memory.write_eq_some hm
    refine ⟨rfl, hsize, rfl, rfl, rfl, fun d' hd' x hx => hother x ?_, .inl ⟨rfl, rfl⟩⟩
    rwa [Option.some.inj (hd.symm.trans hd')]

/-- Settles O34: fault entry, one write with the cursor and the pointer moved, or the wait. -/
theorem storeFrame : Obligations.StoreFrame := by
  intro m1 p1 s t hexec
  rcases execStore_cases m1 p1 s with ⟨c, he⟩ | ⟨v, m, -, -, hm, he⟩ | ⟨-, -, -, he⟩ <;>
    obtain rfl := Host.Outcome.next.inj (he.symm.trans hexec)
  · exact ⟨rfl, rfl, rfl, rfl, fun _ _ _ _ => rfl, .inr (.inr rfl)⟩
  · obtain ⟨-, hsize, -, hother, -⟩ := Memory.write_eq_some hm
    refine ⟨rfl, hsize, rfl, rfl, fun d hd x hx => hother x ?_, .inl ⟨rfl, rfl, rfl⟩⟩
    rwa [← destination_eq m1 p1, Option.some.inj hd]
  · exact ⟨rfl, rfl, rfl, rfl, fun _ _ _ _ => rfl, .inr (.inl rfl)⟩

/-- A conditional jump that answers a next state faulted or moved the pointer, and did nothing else. -/
theorem jumpWhen_eq_next {cond : Int → Bool} {word : Int} {m1 m2 : Mode} {p1 p2 : Int} {s t : State}
    (h : jumpWhen cond word m1 m2 p1 p2 s = .next t) : (∃ c, t = enterFault c word s) ∨ ∃ x, t = s.setIp x := by
  rcases jumpWhen_cases cond s word m1 m2 p1 p2 with ⟨c, target, -, -, he⟩ | ⟨a, he⟩ <;>
    obtain rfl := Host.Outcome.next.inj (he.symm.trans h)
  · exact .inr (by split <;> exact ⟨_, rfl⟩)
  · exact .inl ⟨_, rfl⟩

/-- Settles O35: fault entry, or one emitted value, or the pointer moved. -/
theorem outputAndJumpsFrame : Obligations.OutputAndJumpsFrame := by
  intro i m1 m2 p1 p2 s t hi hexec
  have effect : (∃ c, t = enterFault c (encodeWord i) s) ∨ (∃ x, t = s.setIp x) ∨
      (i = .output m1 p1 ∧ ∃ v, t = (s.outPush v).advance 1) := by
    simp only [List.mem_cons, List.not_mem_nil, or_false] at hi
    rcases hi with rfl | rfl | rfl
    · rcases execOutput_cases m1 p1 s with ⟨c, he⟩ | ⟨v, -, he⟩ <;>
        obtain rfl := Host.Outcome.next.inj (he.symm.trans hexec)
      · exact .inl ⟨c, rfl⟩
      · exact .inr (.inr ⟨rfl, v, rfl⟩)
    · exact (jumpWhen_eq_next hexec).imp_right .inl
    · exact (jumpWhen_eq_next hexec).imp_right .inl
  rcases effect with ⟨c, rfl⟩ | ⟨x, rfl⟩ | ⟨rfl, v, rfl⟩
  · exact ⟨rfl, rfl, fun _ => rfl, rfl, rfl, fun _ => rfl, .inr rfl⟩
  · exact ⟨rfl, rfl, fun _ => rfl, rfl, rfl, fun _ => rfl, .inl ⟨rfl, rfl⟩⟩
  · exact ⟨rfl, rfl, fun _ => rfl, rfl, rfl, fun h => absurd rfl h, .inl ⟨rfl, rfl⟩⟩

/-- Settles O36: the next state is the one with the run state set. -/
theorem haltFrame : Obligations.HaltFrame := by
  intro s t hexec
  obtain rfl := Host.Outcome.next.inj ((haltEndsTheRun s).symm.trans hexec)
  exact ⟨rfl, rfl, fun _ => rfl, rfl, rfl, rfl, rfl, rfl⟩

/-! ### How a run ends, waits, emits and takes -/

/-- What an instruction can do to the run state: keep it and the record, enter a fault, halt at HALT, or wait at a STORE
whose channel is empty. -/
theorem exec_run_cases {i : Instr} {s t : State} (h : exec i s = .next t) :
    (t.run = s.run ∧ t.fault = s.fault) ∨ (∃ c, t = enterFault c (encodeWord i) s) ∨
      (i = .halt ∧ t = s.setRun .halted) ∨
      ∃ m p, i = .store m p ∧ s.inPeek = none ∧ s.config.inputMode = .interactive ∧ t = s.setRun .waitInput := by
  rcases exec_cases h with
    hc | ⟨⟨_, _, _, -, -, rfl, -⟩, -⟩ | ⟨_, _, _, _, -, -, -, -, rfl⟩ | ⟨m, p, rfl, hp, hi, rfl⟩ |
    ⟨_, _, _, -, -, rfl⟩ | ⟨_, _, _, _, _, _, -, -, -, rfl⟩ | ⟨_, _, _, _, _, _, -, -, -, rfl⟩ | ⟨rfl, rfl⟩
  · exact .inr (.inl hc)
  · -- An ALU instruction completes.
    exact .inl ⟨rfl, rfl⟩
  · -- STORE takes a value.
    exact .inl ⟨rfl, rfl⟩
  · exact .inr (.inr (.inr ⟨m, p, rfl, hp, hi, rfl⟩))
  · -- OUTPUT.
    exact .inl ⟨rfl, rfl⟩
  · -- JUMP-IF-TRUE, fired or not.
    split <;> exact .inl ⟨rfl, rfl⟩
  · -- JUMP-IF-FALSE, fired or not.
    split <;> exact .inl ⟨rfl, rfl⟩
  · exact .inr (.inr (.inl ⟨rfl, rfl⟩))

/-- A step that leads to a run state other than RUNNING and FAULTED is HALT, or the wait of a STORE. -/
theorem step_ends {s t : State} (h : step s = .next t) (hr : t.run ≠ .running) (hf : t.run ≠ .faulted) :
    (fetchInstr s = .ok .halt ∧ t = s.setRun .halted) ∨
      ∃ m p, fetchInstr s = .ok (.store m p) ∧ s.inPeek = none ∧ s.config.inputMode = .interactive ∧
        t = s.setRun .waitInput := by
  obtain ⟨hrun, ⟨c, w, -, rfl⟩ | ⟨i, hi, hexec⟩⟩ := step_cases h
  · exact absurd rfl hf
  · rcases exec_run_cases hexec with ⟨hsame, -⟩ | ⟨c, rfl⟩ | ⟨rfl, rfl⟩ | ⟨m, p, rfl, hp, hmode, rfl⟩
    · exact absurd (hsame.trans hrun) hr
    · exact absurd rfl hf
    · exact .inl ⟨hi, rfl⟩
    · exact .inr ⟨m, p, hi, hp, hmode, rfl⟩

/-- Settles O39: HALT is the only instruction that leads to HALTED, and its word is 99. -/
theorem onlyHaltEndsARun : Obligations.OnlyHaltEndsARun := by
  intro s t h ht
  rcases step_ends h (by simp [ht]) (by simp [ht]) with ⟨hi, rfl⟩ | ⟨_, _, -, -, -, rfl⟩
  · exact ⟨read_of_fetchInstr hi, rfl⟩
  · cases ht

theorem read_of_fetch_store {s : State} {m : Mode} {p : Int} (h : fetchInstr s = .ok (.store m p)) :
    s.mem.read s.ip = some 3 ∨ s.mem.read s.ip = some 103 := by
  cases m with
  | position => exact .inl (read_of_fetchInstr h)
  | immediate => exact .inr (read_of_fetchInstr h)

theorem read_of_fetch_output {s : State} {m : Mode} {p : Int} (h : fetchInstr s = .ok (.output m p)) :
    s.mem.read s.ip = some 4 ∨ s.mem.read s.ip = some 104 := by
  cases m with
  | position => exact .inl (read_of_fetchInstr h)
  | immediate => exact .inr (read_of_fetchInstr h)

/-- Settles O40: STORE is the only instruction that leads to WAIT_INPUT. -/
theorem onlyStoreWaits : Obligations.OnlyStoreWaits := by
  intro s t h ht
  rcases step_ends h (by simp [ht]) (by simp [ht]) with ⟨-, rfl⟩ | ⟨m, p, hi, hp, hmode, rfl⟩
  · cases ht
  · exact ⟨read_of_fetch_store hi, hmode, s.inPeek_eq_none_iff.mp hp, rfl⟩

/-- What an instruction can do to the channels, and what it never changes. -/
theorem exec_channels {i : Instr} {s t : State} (h : exec i s = .next t) :
    (t.config = s.config ∧ t.mem.size = s.mem.size ∧ t.inq = s.inq) ∧
      (t.outq = s.outq ∨ ∃ m p v, i = .output m p ∧ t.outq = s.outq ++ [v]) ∧
      (t.cursor = s.cursor ∨ ∃ m p, i = .store m p ∧ t.cursor = s.cursor + 1) := by
  rcases exec_cases h with
    ⟨c, rfl⟩ | ⟨⟨_, _, _, -, hm, rfl, -⟩, -⟩ | ⟨m1, p1, _, _, rfl, -, -, hm, rfl⟩ | ⟨_, _, -, -, -, rfl⟩ |
    ⟨m1, p1, v, rfl, -, rfl⟩ | ⟨_, _, _, _, _, _, -, -, -, rfl⟩ | ⟨_, _, _, _, _, _, -, -, -, rfl⟩ | ⟨-, rfl⟩
  · exact ⟨⟨rfl, rfl, rfl⟩, .inl rfl, .inl rfl⟩
  · -- An ALU instruction completes.
    exact ⟨⟨rfl, (Memory.write_eq_some hm).2.1, rfl⟩, .inl rfl, .inl rfl⟩
  · -- STORE takes a value.
    exact ⟨⟨rfl, (Memory.write_eq_some hm).2.1, rfl⟩, .inl rfl, .inr ⟨m1, p1, rfl, rfl⟩⟩
  · -- STORE waits.
    exact ⟨⟨rfl, rfl, rfl⟩, .inl rfl, .inl rfl⟩
  · -- OUTPUT.
    exact ⟨⟨rfl, rfl, rfl⟩, .inr ⟨m1, p1, v, rfl, rfl⟩, .inl rfl⟩
  · -- JUMP-IF-TRUE, fired or not.
    split <;> exact ⟨⟨rfl, rfl, rfl⟩, .inl rfl, .inl rfl⟩
  · -- JUMP-IF-FALSE, fired or not.
    split <;> exact ⟨⟨rfl, rfl, rfl⟩, .inl rfl, .inl rfl⟩
  · -- HALT.
    exact ⟨⟨rfl, rfl, rfl⟩, .inl rfl, .inl rfl⟩

/-- Settles O41: a fault at the fetch moves nothing, and an instruction moves the channels as `exec_channels` says. -/
theorem channelsMoveOnlyByTheirInstructions : Obligations.ChannelsMoveOnlyByTheirInstructions := by
  intro s t h
  obtain ⟨-, ⟨c, w, -, rfl⟩ | ⟨i, hi, hexec⟩⟩ := step_cases h
  · exact ⟨rfl, rfl, rfl, .inl rfl, .inl rfl⟩
  · obtain ⟨⟨hconfig, hsize, hinq⟩, hout, hcursor⟩ := exec_channels hexec
    refine ⟨hconfig, hsize, hinq, hout.imp_right ?_, hcursor.imp_right ?_⟩
    · rintro ⟨m, p, v, rfl, hv⟩
      exact ⟨⟨v, hv⟩, read_of_fetch_output hi⟩
    · rintro ⟨m, p, rfl, hc⟩
      exact ⟨hc, read_of_fetch_store hi⟩

end Sys2Proof.Machine

end

section
/-! SUPPORT. The proofs of the two statements that compare a step with the step of a changed state: input appended
before the step (70_reset_and_hazards.md section 3), and the width set to `∞` (92_eei_decisions.md D1). Both are one
simulation: a change of what an instruction sees only through the range check and the channel's next value. -/

namespace Sys2Proof.Machine

/-! ### The simulation -/

/-- The change `f` of a state goes along with the steps from `s`, up to the run states in `skip`: it leaves memory and
pointer alone and commutes with the updates an instruction makes; and where the range check or the channel answers
differently in `f s`, the instruction leads from `s` to a run state in `skip`. -/
structure Follows (f : State → State) (skip : Run → Prop) (s : State) : Prop where
  mem_eq : ∀ u, (f u).mem = u.mem
  ip_eq : ∀ u, (f u).ip = u.ip
  setMem : ∀ u m, f (u.setMem m) = (f u).setMem m
  setIp : ∀ u v, f (u.setIp v) = (f u).setIp v
  setFault : ∀ u r, f (u.setFault r) = (f u).setFault r
  setRun : ∀ u r, ¬ skip r → f (u.setRun r) = (f u).setRun r
  inPop : ∀ u, f u.inPop = (f u).inPop
  outPush : ∀ u v, f (u.outPush v) = (f u).outPush v
  inputMode_eq : (f s).config.inputMode = s.config.inputMode
  fits_of_fits : ∀ v, fits s.config v = true → fits (f s).config v = true
  fits_or_skip : ∀ v, fits s.config v = false → fits (f s).config v = false ∨ skip .faulted
  inPeek_some : ∀ v, s.inPeek = some v → (f s).inPeek = some v
  inPeek_none : s.inPeek = none → (f s).inPeek = none ∨ (s.config.inputMode = .interactive ∧ skip .waitInput)

/-- Where `o` is a next state whose run state is not in `skip`, `o'` is that state changed by `f`. -/
def FollowedBy (f : State → State) (skip : Run → Prop) (o o' : Host.Outcome State Fault Refusal) : Prop :=
  ∀ t, o = .next t → ¬ skip t.run → o' = .next (f t)

section

variable {f : State → State} {skip : Run → Prop} {s : State}

theorem followedBy_next {t t' : State} (h : f t = t') : FollowedBy f skip (.next t) (.next t') := by
  rintro u hu -
  rw [← Host.Outcome.next.inj hu, h]

theorem followedBy_of_skip {t : State} (h : skip t.run) (o' : Host.Outcome State Fault Refusal) :
    FollowedBy f skip (.next t) o' := by
  rintro u hu hns
  exact absurd (Host.Outcome.next.inj hu ▸ h) hns

variable (hf : Follows f skip s)
include hf

theorem Follows.setRun_next (u : State) (r : Run) :
    FollowedBy f skip (.next (u.setRun r)) (.next ((f u).setRun r)) := by
  by_cases h : skip r
  · exact followedBy_of_skip h _
  · exact followedBy_next (hf.setRun u r h)

theorem Follows.raise (c : Cause) (word : Int) (u : State) :
    FollowedBy f skip (raise c word u) (raise c word (f u)) := by
  by_cases h : skip .faulted
  · exact followedBy_of_skip h _
  · exact followedBy_next (by rw [enterFault, enterFault, hf.setFault, hf.setRun _ _ h, hf.ip_eq])

theorem Follows.advance (u : State) (n : Nat) : f (u.advance n) = (f u).advance n := by
  rw [State.advance, State.advance, hf.setIp, hf.ip_eq]

theorem Follows.commitWrite (word addr v : Int) (n : Nat) (u : State) :
    FollowedBy f skip (commitWrite word addr v n u) (commitWrite word addr v n (f u)) := by
  rw [Machine.commitWrite, Machine.commitWrite, hf.mem_eq]
  split
  · exact hf.raise _ _ _
  · exact followedBy_next (by rw [hf.advance, hf.setMem])

/-- The range check refuses a value in both states, or the fault is skipped. -/
theorem Follows.fitsCheck {v : Int} {word : Int} {a b : Host.Outcome State Fault Refusal} (h : FollowedBy f skip a b) :
    FollowedBy f skip (if fits s.config v then a else Machine.raise (.wordOverflow v) word s)
      (if fits (f s).config v then b else Machine.raise (.wordOverflow v) word (f s)) := by
  cases hv : fits s.config v with
  | true => simpa [hf.fits_of_fits v hv] using h
  | false =>
    rcases hf.fits_or_skip v hv with hv' | hskip
    · simpa [hv'] using hf.raise _ word s
    · exact followedBy_of_skip hskip _

theorem Follows.commitResult (word addr r : Int) (n : Nat) :
    FollowedBy f skip (commitResult word addr r n s) (commitResult word addr r n (f s)) :=
  hf.fitsCheck (hf.commitWrite word addr r n s)

theorem Follows.withOperands (word : Int) (m1 m2 m3 : Mode) (p1 p2 p3 : Int)
    {act act' : Int → Int → Int → Host.Outcome State Fault Refusal}
    (hact : ∀ a b d, FollowedBy f skip (act a b d) (act' a b d)) :
    FollowedBy f skip (withOperands word m1 m2 m3 p1 p2 p3 s act) (withOperands word m1 m2 m3 p1 p2 p3 (f s) act') := by
  rw [Machine.withOperands, Machine.withOperands, hf.mem_eq]
  split
  · exact hf.raise _ _ _
  · split
    · exact hact _ _ _
    · exact hf.raise _ _ _

theorem Follows.jumpWhen (cond : Int → Bool) (word : Int) (m1 m2 : Mode) (p1 p2 : Int) :
    FollowedBy f skip (jumpWhen cond word m1 m2 p1 p2 s) (jumpWhen cond word m1 m2 p1 p2 (f s)) := by
  rw [Machine.jumpWhen, Machine.jumpWhen, hf.mem_eq]
  split
  · exact hf.raise _ _ _
  · refine followedBy_next ?_
    split
    · exact hf.setIp _ _
    · exact hf.advance _ _

theorem Follows.execOutput (m1 : Mode) (p1 : Int) :
    FollowedBy f skip (execOutput m1 p1 s) (execOutput m1 p1 (f s)) := by
  rw [Machine.execOutput, Machine.execOutput, hf.mem_eq]
  split
  · exact hf.raise _ _ _
  · exact followedBy_next (by rw [hf.advance, hf.outPush])

/-- STORE sees the channel's next value, the input mode and the range check. -/
theorem Follows.execStore (m1 : Mode) (p1 : Int) : FollowedBy f skip (execStore m1 p1 s) (execStore m1 p1 (f s)) := by
  rw [Machine.execStore, Machine.execStore, hf.mem_eq, hf.inputMode_eq]
  split
  · cases hp : s.inPeek with
    | some v =>
      rw [hf.inPeek_some v hp]
      exact hf.fitsCheck (hf.inPop s ▸ hf.commitWrite _ _ v 1 s.inPop)
    | none =>
      cases hi : s.config.inputMode with
      | batch =>
        rw [(hf.inPeek_none hp).resolve_right (by simp [hi])]
        exact hf.raise _ _ _
      | interactive =>
        rcases hf.inPeek_none hp with hp' | ⟨-, hskip⟩
        · rw [hp']
          exact hf.setRun_next s _
        · exact followedBy_of_skip hskip _
  · exact hf.raise _ _ _

/-- An instruction from `f s` follows the instruction from `s`. -/
theorem Follows.exec (i : Instr) : FollowedBy f skip (exec i s) (exec i (f s)) := by
  cases i with
  | add => exact hf.withOperands _ _ _ _ _ _ _ fun a b d => hf.commitResult _ _ _ _
  | mult => exact hf.withOperands _ _ _ _ _ _ _ fun a b d => hf.commitResult _ _ _ _
  | lessThan => exact hf.withOperands _ _ _ _ _ _ _ fun a b d => hf.commitWrite _ _ _ _ _
  | equals => exact hf.withOperands _ _ _ _ _ _ _ fun a b d => hf.commitWrite _ _ _ _ _
  | store => exact hf.execStore _ _
  | output => exact hf.execOutput _ _
  | jumpIfTrue => exact hf.jumpWhen _ _ _ _ _ _
  | jumpIfFalse => exact hf.jumpWhen _ _ _ _ _ _
  | halt => exact hf.setRun_next _ _

theorem Follows.fetchInstr_eq : fetchInstr (f s) = fetchInstr s := by
  rw [fetchInstr, fetchInstr, hf.mem_eq, hf.ip_eq]

/-- A step from `f s` follows the step from `s`. -/
theorem Follows.step {t : State} (hrun : (f s).run = .running) (h : step s = .next t) (hskip : ¬ skip t.run) :
    step (f s) = .next (f t) := by
  obtain ⟨-, ⟨c, w, hc, rfl⟩ | ⟨i, hi, hexec⟩⟩ := step_cases h
  · rw [step_of_fetch_error hrun (hf.fetchInstr_eq.trans hc)]
    exact hf.raise c w s _ rfl hskip
  · rw [step_of_fetchInstr hrun (hf.fetchInstr_eq.trans hi)]
    exact hf.exec i t hexec hskip

end

/-! ### Appended input -/

theorem State.appendInput_setRun {s : State} (v : Int) {r : Run} (h : r ≠ .waitInput) :
    (s.setRun r).appendInput v = (s.appendInput v).setRun r := by
  cases r with
  | waitInput => exact absurd rfl h
  | running | halted | faulted => rfl

theorem State.appendInput_inPeek {s : State} (v : Int) {w : Int} (h : s.inPeek = some w) :
    (s.appendInput v).inPeek = some w := by
  obtain ⟨hlt, -⟩ := List.getElem?_eq_some_iff.mp h
  exact (List.getElem?_append_left hlt).trans h

/-- A value appended in interactive mode goes along with every step that does not wait. -/
theorem follows_appendInput {s : State} (v : Int) (hi : s.config.inputMode = .interactive) :
    Follows (fun u => u.appendInput v) (· = .waitInput) s where
  mem_eq _ := rfl
  ip_eq _ := rfl
  setMem _ _ := rfl
  setIp _ _ := rfl
  setFault _ _ := rfl
  setRun _ _ h := State.appendInput_setRun v h
  inPop _ := rfl
  outPush _ _ := rfl
  inputMode_eq := rfl
  fits_of_fits _ h := h
  fits_or_skip _ h := .inl h
  inPeek_some _ h := State.appendInput_inPeek v h
  inPeek_none _ := .inr ⟨hi, rfl⟩

/-- Settles O47: a step that waits changed the run state only, and every other step is followed from the state with the
value appended. -/
theorem arrivalTimeOfInputDoesNotMatter : Obligations.ArrivalTimeOfInputDoesNotMatter := by
  intro s t v hrun hi h
  split
  · next hw =>
    obtain ⟨-, -, -, rfl⟩ := onlyStoreWaits s t h hw
    exact State.appendInput_of_waiting v hrun
  · next hw => exact (follows_appendInput v hi).step (State.appendInput_run_of_running v hrun) h hw

/-! ### The unbounded width -/

/-- The state with the width set to `W = ∞`. -/
def State.widen (s : State) : State := { s with config := { s.config with width := .unbounded } }

/-- The width set to `∞` goes along with every step that does not fault. -/
theorem follows_widen (s : State) : Follows State.widen (· = .faulted) s where
  mem_eq _ := rfl
  ip_eq _ := rfl
  setMem _ _ := rfl
  setIp _ _ := rfl
  setFault _ _ := rfl
  setRun _ _ _ := rfl
  inPop _ := rfl
  outPush _ _ := rfl
  inputMode_eq := rfl
  fits_of_fits v _ := fits_of_unbounded rfl v
  fits_or_skip _ _ := .inr rfl
  inPeek_some _ h := h
  inPeek_none h := .inl h

/-- Settles O48: the only thing an instruction sees of the width is the range check, whose refusal is a fault. -/
theorem finiteWidthStepIsTheUnboundedStep : Obligations.FiniteWidthStepIsTheUnboundedStep := by
  intro s t h hf
  obtain ⟨hrun, -⟩ := step_cases h
  exact (follows_widen s).step hrun h hf

end Sys2Proof.Machine

end

section
/-! SUPPORT. The proofs of the statements on the invariant: it holds after every reset, every step and every appended
value keep it, and under it a fetched instruction is well formed (10_state.md, 70_reset_and_hazards.md). -/

namespace Sys2Proof.Machine

/-! ### What the invariant gives -/

/-- Settles O46: the parameter words are words the array reads. -/
theorem fetchedInstructionIsWellFormed : Obligations.FetchedInstructionIsWellFormed := by
  intro s i hinv hi
  obtain ⟨w, h, ps, -, -, hps, rfl⟩ := fetchInstr_ok hi
  obtain ⟨hlen, hreads⟩ := readParams_ok hps
  rw [Instr.wf, params_headInstr hlen, List.all_eq_true]
  intro p hp
  obtain ⟨j, hj, rfl⟩ := List.getElem_of_mem hp
  exact hinv.words_fit _ _ ((hreads j (hlen ▸ hj)).trans (List.getElem?_eq_getElem hj))

theorem params_length_le (i : Instr) : i.params.length ≤ 3 := by
  cases i <;> simp [Instr.params]

/-- Under a width that allows the length `N`, every value from 0 to `N + 3` is a Word: the bound of
00_scope.md R5 lets the pointer pass the last instruction (92_eei_decisions.md D16). -/
theorem fits_of_sizeFits {c : Config} {n : Nat} (h : sizeFits c n = true) {v : Int} (h0 : 0 ≤ v) (hv : v ≤ n + 3) :
    fits c v = true := by
  cases hw : c.width with
  | unbounded => exact fits_of_unbounded hw v
  | finite bits =>
    simp only [sizeFits, hw, decide_eq_true_eq] at h
    simp only [fits, hw, decide_eq_true_eq]
    omega

theorem Inv.resolves_fits {s : State} (hinv : Inv s) {m : Mode} {raw v : Int} (hraw : fits s.config raw = true)
    (h : Resolves s m raw v) : fits s.config v = true := by
  rcases h with ⟨-, rfl⟩ | ⟨-, hread⟩
  · exact hraw
  · exact hinv.words_fit raw v hread

/-- The pointer past an instruction that stands in the array is a Word. -/
theorem Inv.advance_fits {s : State} (hinv : Inv s) (hr : InRange s s.ip) {n : Nat} (hn : n ≤ 3) :
    fits s.config (s.ip + 1 + n) = true := by
  obtain ⟨h0, hlt⟩ := hr
  exact fits_of_sizeFits hinv.size_fits (by omega) (by omega)

/-! ### What keeps the invariant -/

theorem Inv.enterFault {s : State} (hinv : Inv s) (c : Cause) (w : Int) : Inv (enterFault c w s) :=
  { hinv with
    record_clear := fun h => absurd rfl h
    record_set := fun _ => ⟨c.code_bounds.1, c.code_bounds.2.1, rfl⟩
    halted_at := nofun
    waiting_at := nofun }

theorem Inv.outPush {s : State} (hinv : Inv s) {v : Int} (hv : fits s.config v = true) : Inv (s.outPush v) :=
  { hinv with
    out_fits := by simpa [or_imp, forall_and] using ⟨hinv.out_fits, hv⟩ }

section

variable {s : State} (hinv : Inv s) (hrun : s.run = .running)
include hinv hrun

theorem Inv.setRun_halted (h : s.mem.read s.ip = some 99) : Inv (s.setRun .halted) :=
  { hinv with
    record_clear := fun _ => hinv.record_clear (by simp [hrun])
    record_set := nofun
    halted_at := fun _ => h
    waiting_at := nofun }

theorem Inv.setRun_waitInput (hi : s.config.inputMode = .interactive) (hp : s.inPeek = none)
    (h : s.mem.read s.ip = some 3 ∨ s.mem.read s.ip = some 103) : Inv (s.setRun .waitInput) :=
  { hinv with
    record_clear := fun _ => hinv.record_clear (by simp [hrun])
    record_set := nofun
    halted_at := nofun
    waiting_at := fun _ => ⟨hi, by simp [State.inEmpty, hp], h⟩ }

theorem Inv.setIp {v : Int} (hv : fits s.config v = true) : Inv (s.setIp v) :=
  { hinv with
    ip_fits := hv
    record_set := by simp [hrun]
    halted_at := by simp [hrun]
    waiting_at := by simp [hrun] }

theorem Inv.setMem {a v : Int} {m : Memory} (hm : s.mem.write a v = some m) (hv : fits s.config v = true) :
    Inv (s.setMem m) := by
  obtain ⟨-, hsize, hsame, hother, hwf⟩ := Memory.write_eq_some hm
  refine
    { hinv with
      size_fits := by simpa [hsize] using hinv.size_fits
      mem_wf := hwf hinv.mem_wf
      words_fit := fun x y hxy => ?_
      halted_at := by simp [hrun]
      waiting_at := by simp [hrun] }
  rcases eq_or_ne x a with rfl | hx
  · exact Option.some.inj (hsame.symm.trans hxy) ▸ hv
  · exact hinv.words_fit x y ((hother x hx).symm.trans hxy)

theorem Inv.inPop {v : Int} (hp : s.inPeek = some v) : Inv s.inPop := by
  obtain ⟨hlt, -⟩ := List.getElem?_eq_some_iff.mp hp
  exact { hinv with
    cursor_le := hlt
    waiting_at := by simp [hrun] }

/-- A conditional jump selects between a target that is a Word and the incremented pointer. -/
theorem Inv.jump {v : Int} (hv : fits s.config v = true) (hr : InRange s s.ip) (b : Bool) :
    Inv (if b then s.setIp v else s.advance 2) := by
  split
  · exact hinv.setIp hrun hv
  · exact hinv.setIp hrun (hinv.advance_fits hr (by decide))

/-- An instruction fetched from a state that meets the invariant leads to one that does. -/
theorem Inv.exec {i : Instr} {t : State} (hi : fetchInstr s = .ok i) (h : exec i s = .next t) : Inv t := by
  have hread : s.mem.read s.ip = some (encodeWord i) := read_of_fetchInstr hi
  have hr : InRange s s.ip := inRange_of_read hread
  have hwf : i.wf s.config = true := fetchedInstructionIsWellFormed s i hinv hi
  rcases exec_cases h with
    ⟨c, rfl⟩ | ⟨⟨d, r, m, -, hm, rfl, hfit⟩, -⟩ | ⟨_, _, v, m, rfl, hp, hf, hm, rfl⟩ | ⟨_, _, rfl, hp, hmode, rfl⟩ |
    ⟨m1, p1, v, rfl, hv, rfl⟩ | ⟨m1, m2, p1, p2, c, v, rfl, -, hv, rfl⟩ | ⟨m1, m2, p1, p2, c, v, rfl, -, hv, rfl⟩ |
    ⟨rfl, rfl⟩
  · exact hinv.enterFault c _
  · -- An ALU instruction writes a result that was checked, or a comparison's 0 or 1.
    have hr' : fits s.config r = true := by
      rcases hfit with hf | ⟨b, rfl⟩
      · exact hf
      · exact fits_boolWord hinv.config_wf b
    exact (hinv.setMem hrun hm hr').setIp hrun (hinv.advance_fits hr (by decide))
  · -- STORE writes an input value that was checked.
    exact ((hinv.inPop hrun hp).setMem hrun hm hf).setIp hrun (hinv.advance_fits hr (by decide))
  · -- STORE waits.
    exact hinv.setRun_waitInput hrun hmode hp (read_of_fetch_store hi)
  · -- OUTPUT emits a parameter word or a word of memory.
    have hfits : fits s.config v = true := hinv.resolves_fits (by simpa [Instr.wf, Instr.params] using hwf) hv
    exact (hinv.outPush hfits).setIp hrun (hinv.advance_fits hr (by decide))
  · -- JUMP-IF-TRUE loads a parameter word or a word of memory.
    obtain ⟨-, hp2⟩ : fits s.config p1 = true ∧ fits s.config p2 = true := by
      simpa [Instr.wf, Instr.params] using hwf
    exact hinv.jump hrun (hinv.resolves_fits hp2 hv) hr _
  · -- JUMP-IF-FALSE likewise.
    obtain ⟨-, hp2⟩ : fits s.config p1 = true ∧ fits s.config p2 = true := by
      simpa [Instr.wf, Instr.params] using hwf
    exact hinv.jump hrun (hinv.resolves_fits hp2 hv) hr _
  · -- HALT.
    exact hinv.setRun_halted hrun hread

end

/-- Settles O44: fault entry keeps the invariant, and so does every instruction that was fetched. -/
theorem stepKeepsTheInvariant : Obligations.StepKeepsTheInvariant := by
  intro s t hinv h
  obtain ⟨hrun, ⟨c, w, -, rfl⟩ | ⟨i, hi, hexec⟩⟩ := step_cases h
  · exact hinv.enterFault c w
  · exact hinv.exec hrun hi hexec

/-! ### Appended input and reset -/

/-- Appended input changes the run state of a waiting core only (70_reset_and_hazards.md R185). -/
theorem State.appendInput_run (s : State) (v : Int) :
    (s.appendInput v).run = if s.run = .waitInput then .running else s.run := by
  cases h : s.run <;> simp [State.appendInput, h]

/-- Settles O52: `State.appendInput_run` is the one field of the update that is not plain. -/
theorem appendAddsInputAndWakes : Obligations.AppendAddsInputAndWakes :=
  fun s v => congrArg (fun r => { s with inq := s.inq ++ [v], run := r }) (s.appendInput_run v)

theorem State.appendInput_run_eq_iff {s : State} {v : Int} {r : Run} (hr : r ≠ .running) (hw : r ≠ .waitInput) :
    (s.appendInput v).run = r ↔ s.run = r := by
  rw [State.appendInput_run]
  split
  · next h => simp [h, hr.symm, hw.symm]
  · rfl

/-- Settles O45: a core that is HALTED or FAULTED stays so, and none is left waiting. -/
theorem appendedInputKeepsTheInvariant : Obligations.AppendedInputKeepsTheInvariant := by
  intro s v hinv
  have halted : (s.appendInput v).run = .halted ↔ s.run = .halted := State.appendInput_run_eq_iff nofun nofun
  have faulted : (s.appendInput v).run = .faulted ↔ s.run = .faulted := State.appendInput_run_eq_iff nofun nofun
  exact { hinv with
    cursor_le := by simpa using Nat.le_succ_of_le hinv.cursor_le
    record_clear := fun h => hinv.record_clear (mt faulted.mpr h)
    record_set := fun h => hinv.record_set (faulted.mp h)
    halted_at := fun h => hinv.halted_at (halted.mp h)
    waiting_at := fun h => absurd h (s.appendInput_run_ne_waitInput v) }

/-- A reset is not refused exactly when the three boot requirements hold (70_reset_and_hazards.md R182). -/
theorem boot_eq_next_iff {c : Config} {image input : List Int} {t : State} :
    boot c image input = .next t ↔
      c.wf = true ∧ sizeFits c image.length = true ∧ imageFits c image = true ∧ t = bootState c image input := by
  unfold boot
  split_ifs with hw hs hi
  · simpa [hw, hs, hi] using eq_comm
  all_goals simp [*]

/-- A word read from a loaded image is a word of the image. -/
theorem mem_of_read_ofImage {image : List Int} {a v : Int} (h : (Memory.ofImage image).read a = some v) :
    v ∈ image := by
  obtain ⟨⟨h0, hlt⟩, -⟩ := Memory.read_eq_some_iff.mp h
  lift a to Nat using h0
  rw [Memory.read_ofImage image a (by simpa [Memory.ofImage] using hlt)] at h
  exact Option.some.inj h ▸ List.getElem_mem _

/-- Settles O43: every word of the array is a word of the image, which the boot requirements have checked. -/
theorem bootMeetsTheInvariant : Obligations.BootMeetsTheInvariant := by
  intro c image input s h
  obtain ⟨hwf, hsize, himage, rfl⟩ := boot_eq_next_iff.mp h
  exact
    { config_wf := hwf
      size_fits := hsize
      mem_wf := wf_ofImage image
      words_fit := fun a v hv => List.all_eq_true.mp himage v (mem_of_read_ofImage hv)
      ip_fits := fits_of_small (v := 0) hwf (by decide) (by decide)
      out_fits := nofun
      cursor_le := Nat.zero_le _
      record_clear := fun _ => rfl
      record_set := nofun
      halted_at := nofun
      waiting_at := nofun }

/-- Settles O42: the model's reset is the boot with the empty image, `W = ∞`, batch mode and no input. -/
theorem resetMeetsTheInvariant : Obligations.ResetMeetsTheInvariant :=
  bootMeetsTheInvariant { width := .unbounded, inputMode := .batch } [] [] State.reset rfl

end Sys2Proof.Machine

end

section
/-! SUPPORT. The proofs of the statements on the canonical memory, on reset, and on what the host reads
(10_state.md section 2, 70_reset_and_hazards.md). -/

namespace Sys2Proof.Machine

/-! ### Canonical memories -/

/-- In a list of cells with rising addresses, each cell is what its address reads. -/
theorem cellWord_of_mem {cs : List (Nat × Int)} (hs : cs.Pairwise fun c d => c.1 < d.1) {c : Nat × Int} (hc : c ∈ cs) :
    cellWord cs c.1 = c.2 := by
  induction cs with
  | nil => cases hc
  | cons d ds ih =>
    obtain ⟨hd, hds⟩ := List.pairwise_cons.mp hs
    rcases List.mem_cons.mp hc with rfl | hc
    · exact if_pos rfl
    · exact (if_neg (hd c hc).ne).trans (ih hds hc)

/-- A word that is not 0 is listed. -/
theorem mem_of_cellWord_ne {cs : List (Nat × Int)} {a : Nat} (h : cellWord cs a ≠ unlistedWord) :
    (a, cellWord cs a) ∈ cs := by
  induction cs with
  | nil => exact absurd rfl h
  | cons d ds ih =>
    rcases eq_or_ne d.1 a with rfl | hda
    · simp [cellWord]
    · rw [cellWord, if_neg hda] at h ⊢
      exact List.mem_cons_of_mem d (ih h)

/-- The cells of a canonical memory are its words that are not 0. -/
theorem Memory.mem_cells_iff {m : Memory} (hm : m.wf) (c : Nat × Int) :
    c ∈ m.cells ↔ m.read c.1 = some c.2 ∧ c.2 ≠ 0 := by
  obtain ⟨hs, hc⟩ := hm
  rw [Memory.read_eq_some_iff, Int.toNat_natCast]
  constructor
  · intro h
    obtain ⟨hlt, hne⟩ := hc c h
    exact ⟨⟨⟨by omega, by omega⟩, cellWord_of_mem hs h⟩, hne⟩
  · rintro ⟨⟨-, hword⟩, hne⟩
    rw [← hword] at hne
    simpa [hword] using mem_of_cellWord_ne hne

/-- Settles O49: cells with rising addresses are determined by their members, which are the words that are not 0. -/
theorem memoriesThatReadAlikeAreEqual : Obligations.MemoriesThatReadAlikeAreEqual := by
  intro m m' hm hm' hsize hread
  have hirrefl : Std.Irrefl fun c d : Nat × Int => c.1 < d.1 := ⟨fun c => lt_irrefl c.1⟩
  have hantisymm : Std.Antisymm fun c d : Nat × Int => c.1 < d.1 := ⟨fun _ _ h h' => absurd h' h.asymm⟩
  have hcells : m.cells = m'.cells :=
    hm.1.eq_of_mem_iff hm'.1 fun c => by rw [Memory.mem_cells_iff hm, Memory.mem_cells_iff hm', hread]
  cases m
  cases m'
  cases hsize
  cases hcells
  rfl

/-! ### Reset -/

/-- Settles O50: the reset is not refused, and the state it leaves is the boot state. -/
theorem resetLoadsTheImage : Obligations.ResetLoadsTheImage := by
  intro before image input hwf hsize himage
  have hboot : hostMove (.reset image input) before = .next (bootState before.config image input) :=
    boot_eq_next_iff.mpr ⟨hwf, hsize, List.all_eq_true.mpr himage, rfl⟩
  refine ⟨_, hboot, rfl, rfl, fun a ha => ?_, fun a ha => Memory.read_eq_none_iff.mpr ?_, rfl, rfl, rfl, rfl, rfl, rfl⟩
  · exact (Memory.read_ofImage image a ha).trans (List.getElem?_eq_getElem ha).symm
  · rintro ⟨h0, hlt⟩
    exact ha.elim h0.not_gt hlt.not_ge

/-- The bound on the length under a finite width (00_scope.md R5). -/
theorem sizeFits_iff_of_finite {c : Config} {bits : Nat} (h : c.width = .finite bits) (n : Nat) :
    sizeFits c n = true ↔ (n : Int) ≤ 2 ^ (bits - 1) - 4 := by
  simp only [sizeFits, h, decide_eq_true_eq]
  zify
  omega

/-- Settles O51: the three boot requirements, each written out for a finite width. -/
theorem bootRequirementsOfAFiniteWidth : Obligations.BootRequirementsOfAFiniteWidth := by
  intro bits mode image input
  simp only [boot_eq_next_iff, exists_and_left, exists_eq, and_true]
  refine and_congr ?_ (and_congr ?_ ?_)
  · simp [Config.wf]
  · exact sizeFits_iff_of_finite rfl _
  · rw [imageFits, List.all_eq_true]
    exact forall₂_congr fun w _ => fits_iff_of_finite rfl w

/-! ### What the host reads -/

theorem Memory.length_toImage (m : Memory) : m.toImage.length = m.size := by
  simp [Memory.toImage]

theorem Memory.getElem?_toImage (m : Memory) {a : Nat} (h : a < m.size) : m.toImage[a]? = m.read a := by
  have hread : m.read a = some (cellWord m.cells a) := Memory.read_eq_some_iff.mpr ⟨⟨by omega, by omega⟩, rfl⟩
  simp [hread, Memory.toImage, h]

/-- Settles O53: the host's read is the whole array in HALTED and FAULTED, and none in the other two run states. -/
theorem hostReadsMemoryOnlyAfterTheRun : Obligations.HostReadsMemoryOnlyAfterTheRun := by
  intro s
  constructor
  · intro h
    refine ⟨s.mem.toImage, ?_, s.mem.length_toImage, fun a => s.mem.getElem?_toImage⟩
    rcases h with h | h <;> simp [hostReadMemory, h]
  · rintro (h | h) <;> simp [hostReadMemory, h]

/-- Settles O54: the four run codes are distinct. -/
theorem statusShowsRunAndRecord : Obligations.StatusShowsRunAndRecord := by
  intro s
  refine ⟨rfl, ?_⟩
  cases h : s.run <;> simp [hostStatus, h, Run.code]

end Sys2Proof.Machine

end
